-- ==== Sys2Proof/Word.lean ====
section
/-! DEFINITION. The word and the byte of HS32 rev2 (R6, R61): a register is 32 bits wide, a byte 8. -/

namespace Sys2Proof

/-- A register value, an address, an instruction word (R6, R20). -/
abbrev Word := BitVec 32

/-- The unit of addressing (R61). -/
abbrev Byte := BitVec 8

end Sys2Proof
end

