-- ==== Sys2Proof/Syntax.lean ====
section
/-! DEFINITION. The instructions of HS32 rev2: one constructor of `Instr` for each of the 40 rows of
spec/opcode_table.json. A field that an instruction does not read (R111) is no argument of its constructor. -/

namespace Sys2Proof

/-- A register number of an instruction, 0 to 15 (R22). -/
abbrev RegNum := BitVec 4

/-- The access sizes `.B`, `.W`, `.D` (R12, R102): 1, 2 and 4 bytes. -/
inductive Size where
  | b
  | w
  | d
deriving DecidableEq, Repr

/-- The four shift directions of the field `dir` (R103). -/
inductive ShiftDir where
  | left
  | right
  | signedRight
  | rotateRight
deriving DecidableEq, Repr

/-- The four values of the field `bank` (R106). -/
inductive BankSel where
  | reserved
  | supervisor
  | interrupt
  | bank3
deriving DecidableEq, Repr

/-- The operand `sh(Rn)`: a register number with the shift direction and amount (R103, R104). -/
structure ShiftedReg where
  rn  : RegNum
  dir : ShiftDir
  amt : BitVec 4
deriving DecidableEq, Repr

/-- The instructions, in the order of R108. A final `R` marks a register form; a load or store without it is
the immediate (M format) form, any other without it the I format form. -/
inductive Instr where
  /-- `LDR.B Rd <- [Rm + imm]` (R130). -/
  | ldrB (rd rm : RegNum) (imm : BitVec 14)
  /-- `LDR.W Rd <- [Rm + imm]` (R130). -/
  | ldrW (rd rm : RegNum) (imm : BitVec 14)
  /-- `LDR.D Rd <- [Rm + imm]` (R130). -/
  | ldrD (rd rm : RegNum) (imm : BitVec 14)
  /-- `LDR.B Rd <- [Rm + sh(Rn)]` (R131). -/
  | ldrBR (rd rm : RegNum) (op : ShiftedReg)
  /-- `LDR.W Rd <- [Rm + sh(Rn)]` (R131). -/
  | ldrWR (rd rm : RegNum) (op : ShiftedReg)
  /-- `LDR.D Rd <- [Rm + sh(Rn)]` (R131). -/
  | ldrDR (rd rm : RegNum) (op : ShiftedReg)
  /-- `STR.B [Rm + imm] <- Rd` (R132). -/
  | strB (rd rm : RegNum) (imm : BitVec 14)
  /-- `STR.W [Rm + imm] <- Rd` (R132). -/
  | strW (rd rm : RegNum) (imm : BitVec 14)
  /-- `STR.D [Rm + imm] <- Rd` (R132). -/
  | strD (rd rm : RegNum) (imm : BitVec 14)
  /-- `STR.B [Rm + sh(Rn)] <- Rd` (R133). -/
  | strBR (rd rm : RegNum) (op : ShiftedReg)
  /-- `STR.W [Rm + sh(Rn)] <- Rd` (R133). -/
  | strWR (rd rm : RegNum) (op : ShiftedReg)
  /-- `STR.D [Rm + sh(Rn)] <- Rd` (R133). -/
  | strDR (rd rm : RegNum) (op : ShiftedReg)
  /-- `MOVT Rd <- imm` (R140). -/
  | movt (rd : RegNum) (imm : BitVec 16)
  /-- `MOV Rd <- imm` (R141). -/
  | mov (rd : RegNum) (imm : BitVec 16)
  /-- `MOV Rd <- sh(Rn)` (R142). -/
  | movR (rd : RegNum) (op : ShiftedReg)
  /-- `MOV Rd <- Rm_b` (R143). -/
  | movFromBank (rd rm : RegNum) (bank : BankSel)
  /-- `MOV Rd_b <- Rm` (R144). -/
  | movToBank (rd rm : RegNum) (bank : BankSel)
  /-- `ADD Rd <- Rm + imm` (R155). -/
  | add (rd rm : RegNum) (imm : BitVec 16)
  /-- `ADD Rd <- Rm + sh(Rn)` (R156). -/
  | addR (rd rm : RegNum) (op : ShiftedReg)
  /-- `ADDC Rd <- Rm + imm + C` (R157). -/
  | addc (rd rm : RegNum) (imm : BitVec 16)
  /-- `ADDC Rd <- Rm + sh(Rn) + C` (R158). -/
  | addcR (rd rm : RegNum) (op : ShiftedReg)
  /-- `SUB Rd <- Rm - imm` (R159). -/
  | sub (rd rm : RegNum) (imm : BitVec 16)
  /-- `SUB Rd <- Rm - sh(Rn)` (R160). -/
  | subR (rd rm : RegNum) (op : ShiftedReg)
  /-- `SUBC Rd <- Rm - imm - C` (R161). -/
  | subc (rd rm : RegNum) (imm : BitVec 16)
  /-- `SUBC Rd <- Rm - sh(Rn) - C` (R162). -/
  | subcR (rd rm : RegNum) (op : ShiftedReg)
  /-- `AND Rd <- Rm & imm` (R163). -/
  | and (rd rm : RegNum) (imm : BitVec 16)
  /-- `AND Rd <- Rm & sh(Rn)` (R164). -/
  | andR (rd rm : RegNum) (op : ShiftedReg)
  /-- `BIC Rd <- Rm & ~imm` (R165). -/
  | bic (rd rm : RegNum) (imm : BitVec 16)
  /-- `BIC Rd <- Rm & ~sh(Rn)` (R166). -/
  | bicR (rd rm : RegNum) (op : ShiftedReg)
  /-- `OR Rd <- Rm | imm` (R167). -/
  | or (rd rm : RegNum) (imm : BitVec 16)
  /-- `OR Rd <- Rm | sh(Rn)` (R168). -/
  | orR (rd rm : RegNum) (op : ShiftedReg)
  /-- `XOR Rd <- Rm ^ imm` (R169). -/
  | xor (rd rm : RegNum) (imm : BitVec 16)
  /-- `XOR Rd <- Rm ^ sh(Rn)` (R170). -/
  | xorR (rd rm : RegNum) (op : ShiftedReg)
  /-- `CMP Rm - imm` (R171). -/
  | cmp (rm : RegNum) (imm : BitVec 16)
  /-- `CMP Rm - sh(Rn)` (R172). -/
  | cmpR (rm : RegNum) (op : ShiftedReg)
  /-- `TST Rm & imm` (R173). -/
  | tst (rm : RegNum) (imm : BitVec 16)
  /-- `TST Rm & sh(Rn)` (R174). -/
  | tstR (rm : RegNum) (op : ShiftedReg)
  /-- `B<c>`, "PC + Offset" (R180). It has no encoding; the offset comes from an I-format immediate
  (DEDUCED, safe: log entry 15), and the spec gives the condition no form. -/
  | bc (imm : BitVec 16)
  /-- `B<c>L`, "PC + Offset" (R181). It has no encoding (DEDUCED operand, safe: log entry 15). -/
  | bcl (imm : BitVec 16)
  /-- `INT`, "imm" (R182). It has no encoding (DEDUCED operand, safe: log entry 15). -/
  | int (imm : BitVec 16)
deriving DecidableEq, Repr

end Sys2Proof
end

