-- ==== Sys2Proof/Config.lean ====
section
/-! DEFINITION. The named parameters of 00_scope.md R7, as plain data, with the defaults the spec gives them, and
the free values of R10 (`draw_N`) and R199 (IRQ_ORACLE). The configuration in force stands in the state's
field `config`, which no step changes (log entry 1). The entry functions of TRAP_ENTRY see the state, so
`Config.suppliedEntry` stands in Machine/Ops.lean. -/

namespace Sys2Proof

/-- OPCODE_PLACEMENT (R96, D1): where the table's 6-bit opcode sits in the 8-bit opcode field. -/
inductive OpcodePlacement where
  | low6
  | high6
deriving DecidableEq, Repr

/-- SIZE_CODE (R102, D3): what each 2-bit size code names; `none` is reserved. -/
structure SizeCode where
  code00 : Option Size
  code01 : Option Size
  code10 : Option Size
  code11 : Option Size
deriving DecidableEq, Repr

/-- UNASSIGNED_OPCODE (R110, D5): what an opcode value with no table row does. -/
inductive UnassignedOpcode where
  | refuse
  | ud
deriving DecidableEq, Repr

/-- RESERVED_FIELD_POLICY (R111, D6): what non-zero bits in a field that is not read do. -/
inductive ReservedFieldPolicy where
  | ignore
  | refuse
deriving DecidableEq, Repr

/-- LOGIC_CV (R153, D10): C and V after a logical instruction. -/
inductive LogicCV where
  | draw
  | unchanged
  | cleared
deriving DecidableEq, Repr

/-- BYTE_ORDER (R64, D12): the order of the bytes of a data access and of a fetch. -/
inductive ByteOrder where
  | little
  | big
deriving DecidableEq, Repr

/-- NARROW_LOAD_EXT (D13): the upper bits of Rd after LDR.B and LDR.W. -/
inductive NarrowLoadExt where
  | zero
  | sign
deriving DecidableEq, Repr

/-- AC_RULE (R69, D14): which addresses raise #AC when alignment checking is enabled. -/
inductive AcRule where
  | fourByte
  | natural
deriving DecidableEq, Repr

/-- A parameter that R7 leaves open (BRANCH_ENCODING, COND_TABLE, INT_ENCODING, D4): R7 names the one value `none`,
under which the instructions that would need it are refused (log entry 15). -/
inductive OpenParameter where
  | none
deriving DecidableEq, Repr

/-- TRAP_ENTRY (R196, D19): `fault` stops the run; `supplied f` is the entry function number `f` of the embedding, a
function of the state and the cause (`Config.suppliedEntry` in Machine/Ops.lean, log entry 10). -/
inductive TrapEntry where
  | fault
  | supplied (f : Nat)
deriving DecidableEq, Repr

/-- IRQ_ORACLE (R199, D20): whether the environment raises interrupts. -/
inductive IrqOracle where
  | never
  | anyTime
deriving DecidableEq, Repr

/-- A run of byte addresses, `base` to `base + size - 1`. -/
structure Region where
  base : Nat
  size : Nat
deriving DecidableEq, Repr

/-- The parameters of R7. -/
structure Config where
  opcodePlacement     : OpcodePlacement
  sizeCode            : SizeCode
  /-- BRANCH_ENCODING (R180, R181, D4). -/
  branchEncoding      : OpenParameter
  /-- COND_TABLE (R180, R181, D4). -/
  condTable           : OpenParameter
  /-- INT_ENCODING (R182, D4). -/
  intEncoding         : OpenParameter
  unassignedOpcode    : UnassignedOpcode
  reservedFieldPolicy : ReservedFieldPolicy
  logicCV             : LogicCV
  byteOrder           : ByteOrder
  narrowLoadExt       : NarrowLoadExt
  /-- ALIGN_CHECK (R69, D14): alignment checking is enabled. -/
  alignCheck          : Bool
  acRule              : AcRule
  /-- MEM_DOMAIN (R63, D26): the addresses that hold ordinary memory, as the union of some runs. -/
  memDomain           : List Region
  /-- RESET_PC (R221, D24): the address of the first instruction. -/
  resetPc             : Word
  trapEntry           : TrapEntry
  irqOracle           : IrqOracle
  /-- END_PC (R228, D30): the run is over when the pc is this address; `none` where the launch names none. -/
  endPc               : Option Word
deriving DecidableEq, Repr

/-- The defaults of R7. R7 gives none for MEM_DOMAIN, RESET_PC and END_PC: here the whole address space,
address 0 and no END_PC (DESIGN CHOICE, unsafe: log entry 2). -/
def Config.default : Config where
  opcodePlacement     := .low6
  sizeCode            := ⟨some .b, some .w, some .d, none⟩
  branchEncoding      := .none
  condTable           := .none
  intEncoding         := .none
  unassignedOpcode    := .refuse
  reservedFieldPolicy := .ignore
  logicCV             := .draw
  byteOrder           := .little
  narrowLoadExt       := .zero
  alignCheck          := false
  acRule              := .fourByte
  memDomain           := [⟨0, 2 ^ 32⟩]
  resetPc             := 0#32
  trapEntry           := .fault
  irqOracle           := .never
  endPc               := none

/-- The free values: the value of the k-th draw of a run (R10, "any value (a draw under no law)"). It has no body,
so nothing in Lean can prove what it is (log entry 7). -/
opaque Config.draw : Nat → BitVec 32

/-- The environment's answer when the model asks it for an interrupt request at an instruction boundary: none,
or a request with some vector number 0 to 31 (R199, IRQ_ORACLE = any_time). It has no body (log entry 9). -/
opaque Config.irqRequest : Nat → Option (BitVec 5)

end Sys2Proof
end

