-- ==== Sys2Proof/WellFormed.lean ====
section
/-! DEFINITION. Which instructions have an encoding under a configuration. Every value of every field is
encodable (the fields have the encoding's own widths), so two checks remain: the instruction has an opcode of its own
(`B<c>`, `B<c>L` and `INT` have none, R109), and its access size has a size code (R102; a SIZE_CODE other than the
default may name no code for a size). -/

namespace Sys2Proof

/-- The size code of R102 that names `z`, the lowest where SIZE_CODE names it twice (log entry 22). -/
def SizeCode.codeOf (m : SizeCode) (z : Size) : Option (BitVec 2) :=
  if m.code00 = some z then some 0#2
  else if m.code01 = some z then some 1#2
  else if m.code10 = some z then some 2#2
  else if m.code11 = some z then some 3#2
  else none

/-- The access size of a load or store (R72). -/
def Instr.accessSize : Instr → Option Size
  | .ldrB _ _ _ | .ldrBR _ _ _ | .strB _ _ _ | .strBR _ _ _ => some .b
  | .ldrW _ _ _ | .ldrWR _ _ _ | .strW _ _ _ | .strWR _ _ _ => some .w
  | .ldrD _ _ _ | .ldrDR _ _ _ | .strD _ _ _ | .strDR _ _ _ => some .d
  | .movt _ _ | .mov _ _ | .movR _ _ | .movFromBank _ _ _ | .movToBank _ _ _ => none
  | .add _ _ _ | .addR _ _ _ => none
  | .addc _ _ _ | .addcR _ _ _ => none
  | .sub _ _ _ | .subR _ _ _ => none
  | .subc _ _ _ | .subcR _ _ _ => none
  | .and _ _ _ | .andR _ _ _ => none
  | .bic _ _ _ | .bicR _ _ _ => none
  | .or _ _ _ | .orR _ _ _ => none
  | .xor _ _ _ | .xorR _ _ _ => none
  | .cmp _ _ | .cmpR _ _ | .tst _ _ | .tstR _ _ => none
  | .bc _ | .bcl _ | .int _ => none

/-- The instruction has an opcode of its own (R109). -/
def Instr.hasOpcode : Instr → Bool
  | .ldrB _ _ _ | .ldrBR _ _ _ | .ldrW _ _ _ | .ldrWR _ _ _ | .ldrD _ _ _ | .ldrDR _ _ _ => true
  | .strB _ _ _ | .strBR _ _ _ | .strW _ _ _ | .strWR _ _ _ | .strD _ _ _ | .strDR _ _ _ => true
  | .movt _ _ | .mov _ _ | .movR _ _ | .movFromBank _ _ _ | .movToBank _ _ _ => true
  | .add _ _ _ | .addR _ _ _ => true
  | .addc _ _ _ | .addcR _ _ _ => true
  | .sub _ _ _ | .subR _ _ _ => true
  | .subc _ _ _ | .subcR _ _ _ => true
  | .and _ _ _ | .andR _ _ _ => true
  | .bic _ _ _ | .bicR _ _ _ => true
  | .or _ _ _ | .orR _ _ _ => true
  | .xor _ _ _ | .xorR _ _ _ => true
  | .cmp _ _ | .cmpR _ _ | .tst _ _ | .tstR _ _ => true
  | .bc _ | .bcl _ | .int _ => false

/-- The instruction's access size, if it has one, has a size code (R102). -/
def Instr.sizeHasCode (c : Config) (i : Instr) : Bool :=
  match i.accessSize with
  | none => true
  | some z => (c.sizeCode.codeOf z).isSome

/-- Some instruction word stands for `i` under `c`. -/
def Instr.wellFormed (c : Config) (i : Instr) : Bool :=
  i.hasOpcode && i.sizeHasCode c

end Sys2Proof
end

