-- ==== Sys2Proof/Decode.lean ====
section
/-! DEFINITION. Decoding (R90 to R115) and, after it, encoding. `decodeWord` is total on 32-bit words and says by
name why a word is no instruction; the byte order of R66 and R67 stands here too, since a fetch uses it (R68). -/

namespace Sys2Proof

/-- Byte `k` of a word, byte 0 the least significant (R67). -/
def byteOf (v : Word) (k : Nat) : Byte := v.extractLsb' (8 * k) 8

/-- The bytes `bs`, the least significant first, as a number (R66, little). -/
def assembleLittle : List Byte → Word
  | [] => 0#32
  | b :: bs => b.zeroExtend 32 ||| (assembleLittle bs <<< 8)

/-- The value of the bytes `bs` of an access, the lowest address first (R66). -/
def assemble (o : ByteOrder) (bs : List Byte) : Word :=
  match o with
  | .little => assembleLittle bs
  | .big => assembleLittle bs.reverse

/-- The low `n` bytes of `v` in the order an access of `n` bytes stores them, the lowest address first (R67). -/
def disassemble (o : ByteOrder) (n : Nat) (v : Word) : List Byte :=
  match o with
  | .little => (List.range n).map (byteOf v)
  | .big => ((List.range n).map (byteOf v)).reverse

/-! The fields of the three formats (R91 to R94). -/

/-- `opcode`, inst[31:24] (R91). -/
def opcodeField (w : Word) : BitVec 8 := w.extractLsb' 24 8
/-- `rd`, inst[23:20] (R91). -/
def rdField (w : Word) : RegNum := w.extractLsb' 20 4
/-- `rm`, inst[19:16] (R91). -/
def rmField (w : Word) : RegNum := w.extractLsb' 16 4
/-- `imm[15:0]` of the I format, inst[15:0] (R92). -/
def imm16Field (w : Word) : BitVec 16 := w.extractLsb' 0 16
/-- `rn` of the R format, inst[15:12] (R93). -/
def rnField (w : Word) : RegNum := w.extractLsb' 12 4
/-- `sh` of the R format, inst[7:4] (R93). -/
def shField (w : Word) : BitVec 4 := w.extractLsb' 4 4
/-- `dir` of the R format, inst[3:2] (R93). -/
def dirField (w : Word) : BitVec 2 := w.extractLsb' 2 2
/-- `bank` of the R format, inst[1:0] (R93). -/
def bankField (w : Word) : BitVec 2 := w.extractLsb' 0 2
/-- The size code of the R format, the low two bits of `func`, inst[9:8] (R102). -/
def sizeFieldR (w : Word) : BitVec 2 := w.extractLsb' 8 2
/-- The size code of the M format, its `func`, inst[15:14] (R94, R102). -/
def sizeFieldM (w : Word) : BitVec 2 := w.extractLsb' 14 2
/-- `imm[13:0]` of the M format, inst[13:0] (R94). -/
def imm14Field (w : Word) : BitVec 14 := w.extractLsb' 0 14

/-- The directions of R103. -/
def dirOfCode (b : BitVec 2) : ShiftDir :=
  if b = 0#2 then .left else if b = 1#2 then .right else if b = 2#2 then .signedRight else .rotateRight

/-- The banks of R106. -/
def bankOfCode (b : BitVec 2) : BankSel :=
  if b = 0#2 then .reserved else if b = 1#2 then .supervisor else if b = 2#2 then .interrupt else .bank3

/-- The size a code names, `none` for a reserved code (R102). -/
def SizeCode.sizeOf (m : SizeCode) (b : BitVec 2) : Option Size :=
  if b = 0#2 then m.code00 else if b = 1#2 then m.code01 else if b = 2#2 then m.code10 else m.code11

/-- The operand `sh(Rn)` of an R-format word (R93, R103). -/
def shiftedField (w : Word) : ShiftedReg := ⟨rnField w, dirOfCode (dirField w), shField w⟩

/-- The 29 assigned opcodes: rows 1 to 29 of R108. -/
inductive Op where
  | ldrI
  | ldrR
  | strI
  | strR
  | movt
  | mov
  | movR
  | movFromBank
  | movToBank
  | add
  | addR
  | addc
  | addcR
  | sub
  | subR
  | subc
  | subcR
  | and
  | andR
  | bic
  | bicR
  | or
  | orR
  | xor
  | xorR
  | cmp
  | cmpR
  | tst
  | tstR
deriving DecidableEq, Repr

/-- The 6-bit opcode `aa_bbbb` of the source's instruction table (R108). -/
def Op.code6 : Op → BitVec 6
  | .ldrI => 0x08#6
  | .ldrR => 0x18#6
  | .strI => 0x09#6
  | .strR => 0x19#6
  | .movt => 0x01#6
  | .mov => 0x00#6
  | .movR => 0x11#6
  | .movFromBank => 0x12#6
  | .movToBank => 0x13#6
  | .add => 0x20#6
  | .addR => 0x30#6
  | .addc => 0x21#6
  | .addcR => 0x31#6
  | .sub => 0x22#6
  | .subR => 0x32#6
  | .subc => 0x23#6
  | .subcR => 0x33#6
  | .and => 0x24#6
  | .andR => 0x34#6
  | .bic => 0x25#6
  | .bicR => 0x35#6
  | .or => 0x26#6
  | .orR => 0x36#6
  | .xor => 0x27#6
  | .xorR => 0x37#6
  | .cmp => 0x2A#6
  | .cmpR => 0x3A#6
  | .tst => 0x2C#6
  | .tstR => 0x3C#6

/-- The row of R108 with a 6-bit opcode; `none` for an unassigned one (R110). -/
def opOfCode6 (b : BitVec 6) : Option Op :=
  match b.toNat with
  | 0x08 => some .ldrI
  | 0x18 => some .ldrR
  | 0x09 => some .strI
  | 0x19 => some .strR
  | 0x01 => some .movt
  | 0x00 => some .mov
  | 0x11 => some .movR
  | 0x12 => some .movFromBank
  | 0x13 => some .movToBank
  | 0x20 => some .add
  | 0x30 => some .addR
  | 0x21 => some .addc
  | 0x31 => some .addcR
  | 0x22 => some .sub
  | 0x32 => some .subR
  | 0x23 => some .subc
  | 0x33 => some .subcR
  | 0x24 => some .and
  | 0x34 => some .andR
  | 0x25 => some .bic
  | 0x35 => some .bicR
  | 0x26 => some .or
  | 0x36 => some .orR
  | 0x27 => some .xor
  | 0x37 => some .xorR
  | 0x2A => some .cmp
  | 0x3A => some .cmpR
  | 0x2C => some .tst
  | 0x3C => some .tstR
  | _ => none

/-- The 8-bit opcode of a row: the 6 bits right-aligned (`low6`) or left-aligned (`high6`) (R96, D1). -/
def Op.code8 (p : OpcodePlacement) (op : Op) : BitVec 8 :=
  match p with
  | .low6 => 0#2 ++ op.code6
  | .high6 => op.code6 ++ 0#2

/-- The row of R108 with an 8-bit opcode; `none` for the 227 unassigned values (R96, R110). -/
def opOfCode8 (p : OpcodePlacement) (b : BitVec 8) : Option Op :=
  match p with
  | .low6 => if b.extractLsb' 6 2 = 0#2 then opOfCode6 (b.extractLsb' 0 6) else none
  | .high6 => if b.extractLsb' 0 2 = 0#2 then opOfCode6 (b.extractLsb' 2 6) else none

/-- The bits of the fields that a row does not read (R111). -/
def Op.unusedMask : Op → Word
  | .ldrI | .strI => 0x00000000#32
  | .ldrR | .strR => 0x00000C03#32
  | .movt | .mov => 0x000F0000#32
  | .movR => 0x000F0F03#32
  | .movFromBank | .movToBank => 0x0000FFFC#32
  | .add | .addc | .sub | .subc | .and | .bic | .or | .xor => 0x00000000#32
  | .addR | .addcR | .subR | .subcR | .andR | .bicR | .orR | .xorR => 0x00000F03#32
  | .cmp | .tst => 0x00F00000#32
  | .cmpR | .tstR => 0x00F00F03#32

/-- Why a word is no instruction and raises nothing. -/
inductive DecodeRefusal where
  /-- An opcode value with no row (R110), UNASSIGNED_OPCODE = refuse. -/
  | unassignedOpcode
  /-- A non-zero bit in a field not read (R111), RESERVED_FIELD_POLICY = refuse. -/
  | nonZeroUnusedField
  /-- A reserved size code of LDR or STR (R102). -/
  | reservedSizeCode
deriving DecidableEq, Repr

/-- What a word decodes to (R115). -/
inductive Decoded where
  /-- An instruction. One with Rn = 15 is decoded too; its meaning raises #UD (R105). -/
  | instr (i : Instr)
  /-- #UD with no instruction: an unassigned opcode under UNASSIGNED_OPCODE = UD (R110), or LDR, STR with
  Rn = 15 and a reserved size code, where #UD comes first (R195). -/
  | ud
  /-- No meaning. -/
  | refuse (r : DecodeRefusal)
deriving DecidableEq, Repr

/-- `LDR.x` in M format (R130). -/
def ldrOf (z : Size) (rd rm : RegNum) (imm : BitVec 14) : Instr :=
  match z with
  | .b => .ldrB rd rm imm
  | .w => .ldrW rd rm imm
  | .d => .ldrD rd rm imm

/-- `LDR.x` in R format (R131). -/
def ldrROf (z : Size) (rd rm : RegNum) (op : ShiftedReg) : Instr :=
  match z with
  | .b => .ldrBR rd rm op
  | .w => .ldrWR rd rm op
  | .d => .ldrDR rd rm op

/-- `STR.x` in M format (R132). -/
def strOf (z : Size) (rd rm : RegNum) (imm : BitVec 14) : Instr :=
  match z with
  | .b => .strB rd rm imm
  | .w => .strW rd rm imm
  | .d => .strD rd rm imm

/-- `STR.x` in R format (R133). -/
def strROf (z : Size) (rd rm : RegNum) (op : ShiftedReg) : Instr :=
  match z with
  | .b => .strBR rd rm op
  | .w => .strWR rd rm op
  | .d => .strDR rd rm op

/-- A load or store in M format: the size code is checked (R102, R115). -/
def decodeM (c : Config) (f : Size → RegNum → RegNum → BitVec 14 → Instr) (w : Word) : Decoded :=
  match c.sizeCode.sizeOf (sizeFieldM w) with
  | some z => .instr (f z (rdField w) (rmField w) (imm14Field w))
  | none => .refuse .reservedSizeCode

/-- A load or store in R format: #UD for Rn = 15 comes before the size code's refusal (R115, R195). -/
def decodeMR (c : Config) (f : Size → RegNum → RegNum → ShiftedReg → Instr) (w : Word) : Decoded :=
  match c.sizeCode.sizeOf (sizeFieldR w) with
  | some z => .instr (f z (rdField w) (rmField w) (shiftedField w))
  | none => if rnField w = 15#4 then .ud else .refuse .reservedSizeCode

/-- The instruction of a row with the fields of its format (R92 to R94, R111). -/
def decodeFields (c : Config) (op : Op) (w : Word) : Decoded :=
  match op with
  | .ldrI => decodeM c ldrOf w
  | .ldrR => decodeMR c ldrROf w
  | .strI => decodeM c strOf w
  | .strR => decodeMR c strROf w
  | .movt => .instr (.movt (rdField w) (imm16Field w))
  | .mov => .instr (.mov (rdField w) (imm16Field w))
  | .movR => .instr (.movR (rdField w) (shiftedField w))
  | .movFromBank => .instr (.movFromBank (rdField w) (rmField w) (bankOfCode (bankField w)))
  | .movToBank => .instr (.movToBank (rdField w) (rmField w) (bankOfCode (bankField w)))
  | .add => .instr (.add (rdField w) (rmField w) (imm16Field w))
  | .addR => .instr (.addR (rdField w) (rmField w) (shiftedField w))
  | .addc => .instr (.addc (rdField w) (rmField w) (imm16Field w))
  | .addcR => .instr (.addcR (rdField w) (rmField w) (shiftedField w))
  | .sub => .instr (.sub (rdField w) (rmField w) (imm16Field w))
  | .subR => .instr (.subR (rdField w) (rmField w) (shiftedField w))
  | .subc => .instr (.subc (rdField w) (rmField w) (imm16Field w))
  | .subcR => .instr (.subcR (rdField w) (rmField w) (shiftedField w))
  | .and => .instr (.and (rdField w) (rmField w) (imm16Field w))
  | .andR => .instr (.andR (rdField w) (rmField w) (shiftedField w))
  | .bic => .instr (.bic (rdField w) (rmField w) (imm16Field w))
  | .bicR => .instr (.bicR (rdField w) (rmField w) (shiftedField w))
  | .or => .instr (.or (rdField w) (rmField w) (imm16Field w))
  | .orR => .instr (.orR (rdField w) (rmField w) (shiftedField w))
  | .xor => .instr (.xor (rdField w) (rmField w) (imm16Field w))
  | .xorR => .instr (.xorR (rdField w) (rmField w) (shiftedField w))
  | .cmp => .instr (.cmp (rmField w) (imm16Field w))
  | .cmpR => .instr (.cmpR (rmField w) (shiftedField w))
  | .tst => .instr (.tst (rmField w) (imm16Field w))
  | .tstR => .instr (.tstR (rmField w) (shiftedField w))

/-- What an opcode value with no row does (R110, D5). -/
def decodeUnassigned (c : Config) : Decoded :=
  match c.unassignedOpcode with
  | .refuse => .refuse .unassignedOpcode
  | .ud => .ud

/-- Decoding an instruction word (R115). -/
def decodeWord (c : Config) (w : Word) : Decoded :=
  match opOfCode8 c.opcodePlacement (opcodeField w) with
  | none => decodeUnassigned c
  | some op =>
    if c.reservedFieldPolicy = .refuse ∧ w &&& op.unusedMask ≠ 0#32 then .refuse .nonZeroUnusedField
    else decodeFields c op w

/-- The instruction that the decoder reads, under the default configuration, from an instruction whose bits are
`w`: the bytes are laid out as the hardware stores them and read back as a fetch reads them (R68). -/
def decodeTableWord (nbits w : Nat) : Option Instr :=
  let o := Config.default.byteOrder
  let bytes := disassemble o 4 (BitVec.ofNat 32 (w % 2 ^ nbits))
  match decodeWord Config.default (assemble o bytes) with
  | .instr i => some i
  | .ud => none
  | .refuse _ => none

/-! Encoding: the same tables read the other way. A field that is not read is written as zero (R111). -/

/-- The I format (R92). -/
def iWord (op8 : BitVec 8) (rd rm : RegNum) (imm : BitVec 16) : Word := op8 ++ rd ++ rm ++ imm

/-- The R format (R93). -/
def rWord (op8 : BitVec 8) (rd rm rn : RegNum) (func sh : BitVec 4) (dir bank : BitVec 2) : Word :=
  op8 ++ rd ++ rm ++ rn ++ func ++ sh ++ dir ++ bank

/-- The M format (R94). -/
def mWord (op8 : BitVec 8) (rd rm : RegNum) (func : BitVec 2) (imm : BitVec 14) : Word :=
  op8 ++ rd ++ rm ++ func ++ imm

/-- The code of a direction (R103). -/
def ShiftDir.code : ShiftDir → BitVec 2
  | .left => 0#2
  | .right => 1#2
  | .signedRight => 2#2
  | .rotateRight => 3#2

/-- The code of a bank (R106). -/
def BankSel.code : BankSel → BitVec 2
  | .reserved => 0#2
  | .supervisor => 1#2
  | .interrupt => 2#2
  | .bank3 => 3#2

/-- A load or store in M format with its size code (R102). -/
def encodeM (c : Config) (op : Op) (z : Size) (rd rm : RegNum) (imm : BitVec 14) : Option Word :=
  (c.sizeCode.codeOf z).map fun k => mWord (op.code8 c.opcodePlacement) rd rm k imm

/-- A load or store in R format with its size code in the low bits of `func` (R102). -/
def encodeMR (c : Config) (op : Op) (z : Size) (rd rm : RegNum) (s : ShiftedReg) : Option Word :=
  (c.sizeCode.codeOf z).map fun k =>
    rWord (op.code8 c.opcodePlacement) rd rm s.rn (0#2 ++ k) s.amt s.dir.code 0#2

/-- An I-format instruction. -/
def encodeI (c : Config) (op : Op) (rd rm : RegNum) (imm : BitVec 16) : Option Word :=
  some (iWord (op.code8 c.opcodePlacement) rd rm imm)

/-- An R-format instruction with the operand `sh(Rn)`. -/
def encodeR (c : Config) (op : Op) (rd rm : RegNum) (s : ShiftedReg) : Option Word :=
  some (rWord (op.code8 c.opcodePlacement) rd rm s.rn 0#4 s.amt s.dir.code 0#2)

/-- A banked MOV. -/
def encodeBank (c : Config) (op : Op) (rd rm : RegNum) (b : BankSel) : Option Word :=
  some (rWord (op.code8 c.opcodePlacement) rd rm 0#4 0#4 0#4 0#2 b.code)

/-- The word of an instruction under a configuration; `none` for one that is not well formed (R108, R109). -/
def encode (c : Config) : Instr → Option Word
  | .ldrB rd rm imm => encodeM c .ldrI .b rd rm imm
  | .ldrW rd rm imm => encodeM c .ldrI .w rd rm imm
  | .ldrD rd rm imm => encodeM c .ldrI .d rd rm imm
  | .ldrBR rd rm op => encodeMR c .ldrR .b rd rm op
  | .ldrWR rd rm op => encodeMR c .ldrR .w rd rm op
  | .ldrDR rd rm op => encodeMR c .ldrR .d rd rm op
  | .strB rd rm imm => encodeM c .strI .b rd rm imm
  | .strW rd rm imm => encodeM c .strI .w rd rm imm
  | .strD rd rm imm => encodeM c .strI .d rd rm imm
  | .strBR rd rm op => encodeMR c .strR .b rd rm op
  | .strWR rd rm op => encodeMR c .strR .w rd rm op
  | .strDR rd rm op => encodeMR c .strR .d rd rm op
  | .movt rd imm => encodeI c .movt rd 0#4 imm
  | .mov rd imm => encodeI c .mov rd 0#4 imm
  | .movR rd op => encodeR c .movR rd 0#4 op
  | .movFromBank rd rm b => encodeBank c .movFromBank rd rm b
  | .movToBank rd rm b => encodeBank c .movToBank rd rm b
  | .add rd rm imm => encodeI c .add rd rm imm
  | .addR rd rm op => encodeR c .addR rd rm op
  | .addc rd rm imm => encodeI c .addc rd rm imm
  | .addcR rd rm op => encodeR c .addcR rd rm op
  | .sub rd rm imm => encodeI c .sub rd rm imm
  | .subR rd rm op => encodeR c .subR rd rm op
  | .subc rd rm imm => encodeI c .subc rd rm imm
  | .subcR rd rm op => encodeR c .subcR rd rm op
  | .and rd rm imm => encodeI c .and rd rm imm
  | .andR rd rm op => encodeR c .andR rd rm op
  | .bic rd rm imm => encodeI c .bic rd rm imm
  | .bicR rd rm op => encodeR c .bicR rd rm op
  | .or rd rm imm => encodeI c .or rd rm imm
  | .orR rd rm op => encodeR c .orR rd rm op
  | .xor rd rm imm => encodeI c .xor rd rm imm
  | .xorR rd rm op => encodeR c .xorR rd rm op
  | .cmp rm imm => encodeI c .cmp 0#4 rm imm
  | .cmpR rm op => encodeR c .cmpR 0#4 rm op
  | .tst rm imm => encodeI c .tst 0#4 rm imm
  | .tstR rm op => encodeR c .tstR 0#4 rm op
  | .bc _ => none
  | .bcl _ => none
  | .int _ => none

end Sys2Proof
end

