-- ==== Sys2Proof/Machine/State.lean ====
section
/-! DEFINITION. The state of one HS32 rev2 processor (R20), as plain data, the reasons a step can stop, and the state
after reset (R46). What reads and writes it stands in Machine/Ops.lean. -/

namespace Sys2Proof.Machine

/-- The flags N, Z, C, V of FLAGS (R32). The reserved bits of FLAGS have no storage (R34, D22). -/
structure Flags where
  n : Bool
  z : Bool
  c : Bool
  v : Bool
deriving DecidableEq, Repr, Inhabited

/-- The fields of MCR (R35). The reserved bits mcr[2] and mcr[13:12] have no storage (R40, D22). -/
structure Mcr where
  /-- `I`, mcr[0]: masks all interrupts when 0 (R36). -/
  i     : Bool
  /-- `S`, mcr[1]: set in supervisor mode; this bit is the mode (R24, R37). -/
  s     : Bool
  /-- `V`, mcr[7:3]: interrupt vector number (R38). -/
  v     : BitVec 5
  /-- `F`, mcr[11:8]: the saved flags N, Z, C, V, N the high bit (R39). -/
  f     : BitVec 4
  /-- The debug flags mcr[23:14], `DBG` the low bit (R41). -/
  debug : BitVec 10
  /-- `DSn`, mcr[31:24]: debug step amount (R42). -/
  dsn   : BitVec 8
deriving DecidableEq, Repr

/-- The two modes (R24, R203). -/
inductive Mode where
  | supervisor
  | irq
deriving DecidableEq, Repr

/-- The physical registers that register numbers name (R20, R22): r0 to r7; r8 to r13 and lr of each bank, index 0
to 6; and the pc. -/
inductive Reg where
  | shared (i : Fin 8)
  | sup (i : Fin 7)
  | irq (i : Fin 7)
  | pc
deriving DecidableEq, Repr

/-- Memory: the bytes that differ from what an unlisted address reads as, by rising address (R65). -/
abbrev Memory := List Host.Cell

/-- The state of the machine: the registers of R20, memory (R65), the bytes stored to since launch (R79), and two
fields of the model's own, the configuration of R7 (log entry 1) and the number of free values drawn (log
entry 7). -/
structure State where
  /-- r0 to r7. -/
  r      : Vector Word 8
  /-- r8_s to r13_s and lr_s. -/
  bankS  : Vector Word 7
  /-- r8_i to r13_i and lr_i. -/
  bankI  : Vector Word 7
  /-- The program counter: the address of the current instruction (R28). -/
  pc     : Word
  flags  : Flags
  mcr    : Mcr
  mem    : Memory
  /-- The byte addresses written by a MemWrite since launch, rising (R79). -/
  stored : List Nat
  /-- The parameters of R7, fixed at launch. -/
  config : Config
  /-- How many free values the run has drawn. -/
  draws  : Nat
deriving DecidableEq, Repr

/-- The fault states of R196 under TRAP_ENTRY = fault: the cause and the pc of the raising instruction. All are
the spec's own stops and are safe: such a run proves nothing further. -/
inductive Fault where
  /-- #UD (R190), raised at `pc` by an R-format instruction whose Rn is the pc, or by the decoder. Safe. -/
  | ud (pc : Word)
  /-- #AC (R191), raised at `pc` by LDR or STR for the address `addr`. Safe. -/
  | ac (addr pc : Word)
  /-- An interrupt taken at the boundary before the instruction at `pc` (R200). Safe. -/
  | interrupt (vector : BitVec 5) (pc : Word)
deriving DecidableEq, Repr

/-- The refusals of R10: the spec gives the case no meaning. All are safe: the model stops where hardware goes on. -/
inductive Refusal where
  /-- `exec`'s arm of an instruction that has no meaning yet; no arm raises it now. Safe. -/
  | notModelled (mnemonic : String)
  /-- The step at END_PC: the run is over and has no next step (R228, log entry 13). Safe. -/
  | runOver
  /-- A step with MCR.DBG set, or a write to MCR that would set it (R210). Safe. -/
  | debugMode
  /-- A fetch with pc[1:0] not 0 (R31). Safe. -/
  | unalignedPc
  /-- A fetch, load or store with a byte outside MEM_DOMAIN (R63). Safe. -/
  | outsideMemDomain
  /-- A fetch of a byte stored to since launch (R79). Safe. -/
  | modifiedCode
  /-- The decoder: an opcode value with no table row (R110). Safe. -/
  | unassignedOpcode
  /-- The decoder: a non-zero field that is not read, under RESERVED_FIELD_POLICY = refuse (R111). Safe. -/
  | nonZeroUnusedField
  /-- The decoder: a reserved size code of LDR or STR (R102). Safe. -/
  | reservedSizeCode
  /-- A banked MOV with bank 00 (R106). Safe. -/
  | reservedBank
  /-- A banked MOV that names a Bank 3 index 2 to 15 (R44). Safe. -/
  | reservedBank3
  /-- A load or store at an address that is no multiple of its size, without #AC (R70). Safe. -/
  | misalignedAccess
  /-- A load or store whose bytes would pass the top of the address space (R62); R70 comes first, so no
  instruction reaches it (log entry 18). Safe. -/
  | wrapsAddressSpace
  /-- `B<c>`, `B<c>L`, `INT`: no encoding and no semantics (R180 to R182). Safe. -/
  | noEncoding (mnemonic : String)
deriving DecidableEq, Repr

/-- The state after reset under a configuration (R46, R220): MCR.S is 1, MCR.DBG is 0 and the pc is RESET_PC. R46
leaves every other register and field unspecified; here they are 0 (DESIGN CHOICE, unsafe: log entries 3, 4
and 5). -/
def State.resetWith (c : Config) : State where
  r      := Vector.replicate 8 0#32
  bankS  := Vector.replicate 7 0#32
  bankI  := Vector.replicate 7 0#32
  pc     := c.resetPc
  flags  := ⟨false, false, false, false⟩
  mcr    := ⟨false, true, 0#5, 0#4, 0#10, 0#8⟩
  mem    := []
  stored := []
  config := c
  draws  := 0

/-- The state after reset under the default configuration (log entry 2). -/
def State.reset : State := State.resetWith Config.default

end Sys2Proof.Machine
end

