-- ==== Sys2Proof/Machine/Ops.lean ====
section
/-! DEFINITION. The named operations over the state: free values, registers and banks (R20 to R30), FLAGS and MCR
as registers (R34, R43), memory (R62 to R70), taking an exception (R196, R200). Every meaning reads and writes the
state through these. -/

namespace Sys2Proof.Machine

/-- The outcome of a meaning. -/
abbrev Result := Host.Outcome State Fault Refusal

/-! Field updates. -/

/-- Set the pc. -/
def State.setPc (s : State) (a : Word) : State := { s with pc := a }
/-- Set N, Z, C and V. -/
def State.setFlags (s : State) (f : Flags) : State := { s with flags := f }
/-- Set MCR. -/
def State.setMcr (s : State) (m : Mcr) : State := { s with mcr := m }
/-- Set memory and the addresses stored to. -/
def State.setMem (s : State) (m : Memory) (st : List Nat) : State := { s with mem := m, stored := st }
/-- Set the IRQ bank. -/
def State.setBankI (s : State) (b : Vector Word 7) : State := { s with bankI := b }

/-- The pc of the next instruction where none writes it: plus 4 modulo 2^32 (R30, D16). -/
def State.advance (s : State) : State := s.setPc (s.pc + 4#32)

/-! Free values (R10 `draw_N`). -/

/-- The `k`-th next free value; nothing constrains it. -/
def State.drawn (s : State) (k : Nat) : Word := Config.draw (s.draws + k)
/-- The state after `n` free values are drawn. -/
def State.skipDraws (s : State) (n : Nat) : State := { s with draws := s.draws + n }

/-! Modes and registers. -/

/-- The current mode is MCR.S (R24, D21). -/
def State.mode (s : State) : Mode := if s.mcr.s then .supervisor else .irq

/-- The register of a mode's bank with index 0 to 6: r8 to r13 and lr (R22). -/
def bankReg (m : Mode) (i : Fin 7) : Reg :=
  match m with
  | .supervisor => .sup i
  | .irq => .irq i

/-- The physical register that a register number names in a mode (R22, R23, R25). -/
def regOf (m : Mode) (n : RegNum) : Reg :=
  if h : n.toNat < 8 then .shared ⟨n.toNat, h⟩
  else if h' : n.toNat < 15 then bankReg m ⟨n.toNat - 8, by omega⟩
  else .pc

/-- Read a physical register. The pc reads as the address of the current instruction (R28). -/
def State.get (s : State) (g : Reg) : Word :=
  match g with
  | .shared i => s.r.get i
  | .sup i => s.bankS.get i
  | .irq i => s.bankI.get i
  | .pc => s.pc

/-- Write a physical register. A write of the pc sets the address of the next instruction to the value,
unchecked (R29). -/
def State.put (s : State) (g : Reg) (v : Word) : State :=
  match g with
  | .shared i => { s with r := s.r.set i v }
  | .sup i => { s with bankS := s.bankS.set i v }
  | .irq i => { s with bankI := s.bankI.set i v }
  | .pc => { s with pc := v }

/-- `x[n]`: read a register in the current mode's bank (R25). -/
def State.x (s : State) (n : RegNum) : Word := s.get (regOf s.mode n)

/-- The end of an instruction that writes `x[rd] <- v`: the pc goes on by 4, unless Rd is the pc (R29, R30). -/
def State.writeBack (s : State) (rd : RegNum) (v : Word) : State :=
  s.advance.put (regOf s.mode rd) v

/-! FLAGS and MCR as 32-bit registers. -/

/-- N, Z, C, V as four bits, N the high bit: FLAGS[11:8] and MCR.F (R32, R39). -/
def Flags.bits (f : Flags) : BitVec 4 :=
  BitVec.ofBool f.n ++ BitVec.ofBool f.z ++ BitVec.ofBool f.c ++ BitVec.ofBool f.v

/-- The flags that four bits stand for, N the high bit (R32). -/
def flagsOfBits (b : BitVec 4) : Flags := ⟨b.getLsbD 3, b.getLsbD 2, b.getLsbD 1, b.getLsbD 0⟩

/-- The word a read of FLAGS returns; `hi` and `lo` are the drawn reserved bits (R34). -/
def flagsWord (f : Flags) (hi : BitVec 20) (lo : BitVec 8) : Word := hi ++ f.bits ++ lo

/-- What a write of FLAGS stores: bits 11:8 (R34). -/
def flagsOfWord (v : Word) : Flags := flagsOfBits (v.extractLsb' 8 4)

/-- The word a read of MCR returns; `d2` and `d1` are the drawn reserved bits mcr[13:12] and mcr[2] (R43). -/
def mcrWord (m : Mcr) (d2 : BitVec 2) (d1 : BitVec 1) : Word :=
  m.dsn ++ m.debug ++ d2 ++ m.f ++ m.v ++ d1 ++ BitVec.ofBool m.s ++ BitVec.ofBool m.i

/-- What a write of MCR stores; the reserved bits are ignored (R43). -/
def mcrOfWord (v : Word) : Mcr where
  i     := v.getLsbD 0
  s     := v.getLsbD 1
  v     := v.extractLsb' 3 5
  f     := v.extractLsb' 8 4
  debug := v.extractLsb' 14 10
  dsn   := v.extractLsb' 24 8

/-- MCR.DBG, mcr[14] (R41). -/
def Mcr.dbg (m : Mcr) : Bool := BitVec.getLsbD m.debug 0

/-- What a banked MOV names by its bank and register number (R26). -/
inductive BankedReg where
  | reg (g : Reg)
  | flags
  | mcr
deriving DecidableEq, Repr

/-- `xb[bank][n]` resolved (R26), with the refusals of R44 and R106. -/
def bankedReg (b : BankSel) (n : RegNum) : Except Refusal BankedReg :=
  match b with
  | .reserved => .error .reservedBank
  | .supervisor => .ok (.reg (regOf .supervisor n))
  | .interrupt => .ok (.reg (regOf .irq n))
  | .bank3 => if n = 0#4 then .ok .flags else if n = 1#4 then .ok .mcr else .error .reservedBank3

/-! Memory. -/

/-- What an address that memory does not list reads as (DESIGN CHOICE, unsafe: log entry 6). -/
def blankByte : Byte := 0#8

/-- The byte at an address (R65). -/
def Memory.read : Memory → Nat → Byte
  | [], _ => blankByte
  | (a, b) :: m, x => if x = a then b else Memory.read m x

/-- Set the byte at an address, keeping the canonical form: a blank byte is not listed (R67). -/
def Memory.write : Memory → Nat → Byte → Memory
  | [], x, v => if v = blankByte then [] else [(x, v)]
  | (a, b) :: m, x, v =>
    if x < a then (if v = blankByte then (a, b) :: m else (x, v) :: (a, b) :: m)
    else if x = a then (if v = blankByte then m else (x, v) :: m)
    else (a, b) :: Memory.write m x v

/-- The entries have rising addresses from `lo` on, below 2^32, and no blank byte. -/
def Memory.wfFrom : Nat → Memory → Bool
  | _, [] => true
  | lo, (a, b) :: m => decide (lo ≤ a) && decide (a < 2 ^ 32) && decide (b ≠ blankByte) && Memory.wfFrom (a + 1) m

/-- The canonical form of memory. -/
def Memory.wf (m : Memory) : Bool := Memory.wfFrom 0 m

/-- The `n` bytes from `a` on; addresses are modulo 2^32 (R62). -/
def readBytes (m : Memory) : Word → Nat → List Byte
  | _, 0 => []
  | a, n + 1 => Memory.read m a.toNat :: readBytes m (a + 1#32) n

/-- Set the bytes from `a` on (R67). -/
def writeBytes : Memory → Word → List Byte → Memory
  | m, _, [] => m
  | m, a, b :: bs => writeBytes (Memory.write m a.toNat b) (a + 1#32) bs

/-- Add an address to a rising list. -/
def addrInsert : List Nat → Nat → List Nat
  | [], x => [x]
  | a :: l, x => if x < a then x :: a :: l else if x = a then a :: l else a :: addrInsert l x

/-- Addresses rising from `lo` on, below 2^32. -/
def addrsFrom : Nat → List Nat → Bool
  | _, [] => true
  | lo, a :: l => decide (lo ≤ a) && decide (a < 2 ^ 32) && addrsFrom (a + 1) l

/-- Mark the `n` bytes from `a` on as stored to (R79). -/
def markStored (l : List Nat) : Word → Nat → List Nat
  | _, 0 => l
  | a, n + 1 => addrInsert (markStored l (a + 1#32) n) a.toNat

/-- The `n` bytes from `a` on are not marked as stored to any more: a program is loaded there. -/
def unmarkStored (l : List Nat) : Word → Nat → List Nat
  | _, 0 => l
  | a, n + 1 => (unmarkStored l (a + 1#32) n).filter (fun x => decide (x ≠ a.toNat))

/-- Some of the `n` bytes from `a` on was stored to since launch (R79). -/
def anyStored (l : List Nat) : Word → Nat → Bool
  | _, 0 => false
  | a, n + 1 => decide (a.toNat ∈ l) || anyStored l (a + 1#32) n

/-- The address lies in MEM_DOMAIN (R63). -/
def inDomain (c : Config) (a : Nat) : Bool :=
  c.memDomain.any fun g => decide (g.base ≤ a) && decide (a < g.base + g.size)

/-- The `n` bytes from `a` on all lie in MEM_DOMAIN (R63). -/
def rangeInDomain (c : Config) : Word → Nat → Bool
  | _, 0 => true
  | a, n + 1 => inDomain c a.toNat && rangeInDomain c (a + 1#32) n

/-- The bytes an access of a size moves (R72). -/
def bytesOf : Size → Nat
  | .b => 1
  | .w => 2
  | .d => 4

/-- `MemRead(addr, n)`, zero-extended to 32 bits (R66). -/
def State.memRead (s : State) (a : Word) (n : Nat) : Word :=
  assemble s.config.byteOrder (readBytes s.mem a n)

/-- `MemWrite(addr, n, v)` of the low `n` bytes of `v`; the bytes are from then on code that a fetch refuses
(R67, R79). -/
def State.memWrite (s : State) (a : Word) (n : Nat) (v : Word) : State :=
  s.setMem (writeBytes s.mem a (disassemble s.config.byteOrder n v)) (markStored s.stored a n)

/-! Taking an exception. -/

/-- What is raised or taken: #UD (R190), #AC (R191), an interrupt with its vector number (R198). -/
inductive TrapCause where
  | ud
  | ac (addr : Word)
  | interrupt (vector : BitVec 5)
deriving DecidableEq, Repr

/-- The fault state of R196: the cause and the pc of the raising instruction. -/
def faultOf (cause : TrapCause) (pc : Word) : Fault :=
  match cause with
  | .ud => .ud pc
  | .ac a => .ac a pc
  | .interrupt n => .interrupt n pc

/-- What an entry function decides: everything R200 lists as free (the pc, r8_i to r13_i and lr_i, MCR.I, the flags),
and the vector number of a cause that has none (R193). Everything else R200 fixes. -/
structure EntryChoice where
  pc     : Word
  bankI  : Vector Word 7
  i      : Bool
  flags  : Flags
  vector : BitVec 5
deriving DecidableEq, Repr, Inhabited

end Sys2Proof.Machine

namespace Sys2Proof

open Sys2Proof.Machine in
/-- TRAP_ENTRY = f (R196): what the embedding's entry function number `f` decides for a state and a cause. It has no
body, so nothing in Lean can prove what it decides; a claim about one entry function takes as a premise what this
function is (log entry 10). -/
opaque Config.suppliedEntry (f : Nat) (s : State) (cause : TrapCause) : EntryChoice

end Sys2Proof

namespace Sys2Proof.Machine

/-- The vector number MCR.V holds after entry: the interrupt's own; for #UD and #AC, to which the source gives no number,
what the entry function decides (R193; DEDUCED, safe: log entry 11). -/
def vectorOf (cause : TrapCause) (chosen : BitVec 5) : BitVec 5 :=
  match cause with
  | .interrupt n => n
  | .ud => chosen
  | .ac _ => chosen

/-- The state after the entry function number `f`, by the constraints of R200: MCR.S is 0, MCR.V the vector number,
MCR.F the flags before entry; r0 to r7, the supervisor bank and memory are unchanged; the pc, the whole IRQ bank,
MCR.I and the flags are the function's. The debug fields of MCR are unchanged (DEDUCED: log entry 12). -/
def State.enterTrap (s : State) (f : Nat) (cause : TrapCause) : State :=
  let e := Config.suppliedEntry f s cause
  (((s.setPc e.pc).setBankI e.bankI).setFlags e.flags).setMcr
    { s.mcr with i := e.i, s := false, v := vectorOf cause e.vector, f := s.flags.bits }

/-- Raising an exception or taking an interrupt (R196): by TRAP_ENTRY the run stops in a fault state, or the
supplied entry is taken, the same in either mode (R202). The instruction itself writes nothing (R197). -/
def takeException (s : State) (cause : TrapCause) : Result :=
  match s.config.trapEntry with
  | .fault => .fault (faultOf cause s.pc)
  | .supplied f => .next (s.enterTrap f cause)

/-! The checks of a data access. -/

/-- The outcome of `Access(addr, n)`. -/
inductive AccessVerdict where
  | ok
  | raiseAc
  | refuse (r : Refusal)
deriving DecidableEq, Repr

/-- The address raises #AC when alignment checking is enabled (R69). -/
def acRaised (c : Config) (a : Word) (n : Nat) : Bool :=
  c.alignCheck &&
    match c.acRule with
    | .fourByte => decide (a.toNat % 4 ≠ 0)
    | .natural => decide (a.toNat % n ≠ 0)

/-- `Access(addr, n)` of 40_load_store.md, in its order: #AC (R69), misaligned (R70), wrap (R62), outside
MEM_DOMAIN (R63). -/
def accessCheck (s : State) (a : Word) (n : Nat) : AccessVerdict :=
  if acRaised s.config a n then .raiseAc
  else if a.toNat % n ≠ 0 then .refuse .misalignedAccess
  else if 2 ^ 32 < a.toNat + n then .refuse .wrapsAddressSpace
  else if rangeInDomain s.config a n then .ok
  else .refuse .outsideMemDomain

/-- The outcome of an access at `a` of `n` bytes: `done` after the checks, or what they say. -/
def withAccess (s : State) (a : Word) (n : Nat) (done : State) : Result :=
  match accessCheck s a n with
  | .ok => .next done
  | .raiseAc => takeException s (.ac a)
  | .refuse r => .refused r

/-! Fetching. -/

/-- The word a fetch at the pc reads, after the checks of R31, R63 and R79 in R195's order. -/
def fetchWord (s : State) : Except Refusal Word :=
  if s.pc.extractLsb' 0 2 ≠ 0#2 then .error .unalignedPc
  else if rangeInDomain s.config s.pc 4 = false then .error .outsideMemDomain
  else if anyStored s.stored s.pc 4 then .error .modifiedCode
  else .ok (s.memRead s.pc 4)

/-- A program's word placed by the launch at the pc, where a fetch reads it (R229): it is not a MemWrite. -/
def State.placeWord (s : State) (w : Word) : State :=
  s.setMem (writeBytes s.mem s.pc (disassemble s.config.byteOrder 4 w)) (unmarkStored s.stored s.pc 4)

end Sys2Proof.Machine
end

