-- ==== Sys2Proof/Machine/Cycle.lean ====
section
/-! DEFINITION. The instruction cycle up to the run of the instruction (R116 steps 1 to 6, in the order of R195): the end
of the run, an interrupt at the boundary, debug mode, the fetch and the decoding. -/

namespace Sys2Proof.Machine

/-- What an instruction boundary leads to. -/
inductive Boundary where
  /-- The instruction to run, and the state to run it in. -/
  | run (i : Instr) (s : State)
  /-- The step is over without an instruction's run. -/
  | stop (o : Result)

/-- A decoder's refusal as the machine's. -/
def refusalOf (r : DecodeRefusal) : Refusal :=
  match r with
  | .unassignedOpcode => .unassignedOpcode
  | .nonZeroUnusedField => .nonZeroUnusedField
  | .reservedSizeCode => .reservedSizeCode

/-- Fetch and decode (R116 steps 3 to 6): debug mode is refused first (R210), then R31, R63, R79 and the decoder's
outcomes (R115). -/
def issue (s : State) : Boundary :=
  if s.mcr.dbg then .stop (.refused .debugMode)
  else
    match fetchWord s with
    | .error r => .stop (.refused r)
    | .ok w =>
      match decodeWord s.config w with
      | .instr i => .run i s
      | .ud => .stop (takeException s .ud)
      | .refuse r => .stop (.refused (refusalOf r))

/-- The environment is asked for an interrupt request: IRQ_ORACLE = any_time and MCR.I = 1 (R199). -/
def irqAsked (s : State) : Bool := decide (s.config.irqOracle = .anyTime) && s.mcr.i

/-- An instruction boundary (R116 steps 1 to 6). At END_PC the run is over and nothing is fetched (R228). -/
def boundary (s : State) : Boundary :=
  if s.config.endPc = some s.pc then .stop (.refused .runOver)
  else if irqAsked s then
    match Config.irqRequest s.draws with
    | some n => .stop (takeException (s.skipDraws 1) (.interrupt n))
    | none => issue (s.skipDraws 1)
  else issue s

end Sys2Proof.Machine
end

