-- ==== Sys2Proof/Machine/Operands.lean ====
section
/-! DEFINITION. The operand forms: sign-extended immediates (R99, R100), the shifter (R104), `sh(Rn)` with its #UD
rule (R105), the two addressing modes (R130, R131) and the extension of a narrow load (D13). -/

namespace Sys2Proof.Machine

/-- The I-format immediate (R99). -/
def imm32 (imm : BitVec 16) : Word := imm.signExtend 32

/-- The M-format immediate (R100). -/
def imm32M (imm : BitVec 14) : Word := imm.signExtend 32

/-- The shifter `sh(v, dir, amt)` (R104, D11). -/
def shiftWord (v : Word) (dir : ShiftDir) (amt : BitVec 4) : Word :=
  match dir with
  | .left => v <<< amt.toNat
  | .right => v >>> amt.toNat
  | .signedRight => v.sshiftRight amt.toNat
  | .rotateRight => (v >>> amt.toNat) ||| (v <<< (32 - amt.toNat))

/-- `sh(Rn)`, Rn read in the current mode's bank (R104). -/
def State.shifted (s : State) (op : ShiftedReg) : Word := shiftWord (s.x op.rn) op.dir op.amt

/-- An R-format instruction in which Rn is an operand: `rn = 1111` raises #UD before anything else happens
(R105); otherwise it goes on with `sh(Rn)`. -/
def withShifted (s : State) (op : ShiftedReg) (k : Word → Result) : Result :=
  if op.rn = 15#4 then takeException s .ud else k (s.shifted op)

/-- The address `Rm + imm` modulo 2^32 (R62, R130). -/
def State.addrImm (s : State) (rm : RegNum) (imm : BitVec 14) : Word := s.x rm + imm32M imm

/-- The address `Rm + sh(Rn)` modulo 2^32 (R62, R131). -/
def State.addrReg (s : State) (rm : RegNum) (op : ShiftedReg) : Word := s.x rm + s.shifted op

/-- `Ext(v, n)` of 40_load_store.md for a zero-extended value of a size (D13). -/
def extLoad (e : NarrowLoadExt) (z : Size) (v : Word) : Word :=
  match e, z with
  | .zero, _ => v
  | .sign, .b => (v.extractLsb' 0 8).signExtend 32
  | .sign, .w => (v.extractLsb' 0 16).signExtend 32
  | .sign, .d => v

/-- The value a load puts in Rd: `Ext(MemRead(addr, n), n)` (R130). -/
def State.loadValue (s : State) (z : Size) (a : Word) : Word :=
  extLoad s.config.narrowLoadExt z (s.memRead a (bytesOf z))

end Sys2Proof.Machine
end

