-- ==== Sys2Proof/Machine/Flags.lean ====
section
/-! DEFINITION. The flag laws of the ALU class (R150 to R153), computed as the spec writes them: over the exact
integers, narrowed at the end. -/

namespace Sys2Proof.Machine

/-- The result of an addition with carry in `cin` (R151). -/
def addResult (a b : Word) (cin : Bool) : Word := BitVec.ofNat 32 (a.toNat + b.toNat + cin.toNat)

/-- N, Z, C, V of an addition (R150, R151). -/
def addFlags (a b : Word) (cin : Bool) : Flags :=
  let usum : Nat := a.toNat + b.toNat + cin.toNat
  let ssum : Int := a.toInt + b.toInt + (cin.toNat : Int)
  { n := (addResult a b cin).msb
    z := decide (addResult a b cin = 0#32)
    c := decide (2 ^ 32 ≤ usum)
    v := decide (ssum < -(2 ^ 31) ∨ 2 ^ 31 - 1 < ssum) }

/-- The result of a subtraction with borrow in `bin` (R152). -/
def subResult (a b : Word) (bin : Bool) : Word :=
  BitVec.ofInt 32 ((a.toNat : Int) - (b.toNat : Int) - (bin.toNat : Int))

/-- N, Z, C, V of a subtraction; C is the borrow (R150, R152). -/
def subFlags (a b : Word) (bin : Bool) : Flags :=
  let udiff : Int := (a.toNat : Int) - (b.toNat : Int) - (bin.toNat : Int)
  let sdiff : Int := a.toInt - b.toInt - (bin.toNat : Int)
  { n := (subResult a b bin).msb
    z := decide (subResult a b bin = 0#32)
    c := decide (udiff < 0)
    v := decide (sdiff < -(2 ^ 31) ∨ 2 ^ 31 - 1 < sdiff) }

/-- The state with the flags of a logical result: N and Z from the result (R150), C and V by LOGIC_CV; under
`draw` both are free values (R153). -/
def State.logicFlags (s : State) (res : Word) : State :=
  match s.config.logicCV with
  | .draw =>
    (s.setFlags ⟨res.msb, decide (res = 0#32), (s.drawn 0).getLsbD 0, (s.drawn 1).getLsbD 0⟩).skipDraws 2
  | .unchanged => s.setFlags ⟨res.msb, decide (res = 0#32), s.flags.c, s.flags.v⟩
  | .cleared => s.setFlags ⟨res.msb, decide (res = 0#32), false, false⟩

end Sys2Proof.Machine
end

