-- ==== Sys2Proof/Machine/Alu.lean ====
section
/-! DEFINITION. The arithmetic, logic and compare instructions (42_alu.md, R150 to R174). `a` and the second operand are
read before anything is written, and the old C where it is used (R154); with Rd = 15 the result is the next pc
and the flags are still written. -/

namespace Sys2Proof.Machine

/-- An addition into Rd, all four flags written (R151). -/
def addTo (rd : RegNum) (a b : Word) (cin : Bool) (s : State) : State :=
  (s.setFlags (addFlags a b cin)).writeBack rd (addResult a b cin)

/-- A subtraction into Rd, all four flags written (R152). -/
def subTo (rd : RegNum) (a b : Word) (bin : Bool) (s : State) : State :=
  (s.setFlags (subFlags a b bin)).writeBack rd (subResult a b bin)

/-- A logical result into Rd, the flags by R150 and R153. -/
def logicTo (rd : RegNum) (res : Word) (s : State) : State := (s.logicFlags res).writeBack rd res

/-- `ADD Rd <- Rm + imm` (R155). -/
def execAdd (rd rm : RegNum) (imm : BitVec 16) (s : State) : Result :=
  .next (addTo rd (s.x rm) (imm32 imm) false s)

/-- `ADD Rd <- Rm + sh(Rn)` (R156). -/
def execAddR (rd rm : RegNum) (op : ShiftedReg) (s : State) : Result :=
  withShifted s op fun b => .next (addTo rd (s.x rm) b false s)

/-- `ADDC Rd <- Rm + imm + C` (R157). -/
def execAddc (rd rm : RegNum) (imm : BitVec 16) (s : State) : Result :=
  .next (addTo rd (s.x rm) (imm32 imm) s.flags.c s)

/-- `ADDC Rd <- Rm + sh(Rn) + C` (R158). -/
def execAddcR (rd rm : RegNum) (op : ShiftedReg) (s : State) : Result :=
  withShifted s op fun b => .next (addTo rd (s.x rm) b s.flags.c s)

/-- `SUB Rd <- Rm - imm` (R159). -/
def execSub (rd rm : RegNum) (imm : BitVec 16) (s : State) : Result :=
  .next (subTo rd (s.x rm) (imm32 imm) false s)

/-- `SUB Rd <- Rm - sh(Rn)` (R160). -/
def execSubR (rd rm : RegNum) (op : ShiftedReg) (s : State) : Result :=
  withShifted s op fun b => .next (subTo rd (s.x rm) b false s)

/-- `SUBC Rd <- Rm - imm - C` (R161). -/
def execSubc (rd rm : RegNum) (imm : BitVec 16) (s : State) : Result :=
  .next (subTo rd (s.x rm) (imm32 imm) s.flags.c s)

/-- `SUBC Rd <- Rm - sh(Rn) - C` (R162). -/
def execSubcR (rd rm : RegNum) (op : ShiftedReg) (s : State) : Result :=
  withShifted s op fun b => .next (subTo rd (s.x rm) b s.flags.c s)

/-- `AND Rd <- Rm & imm` (R163). -/
def execAnd (rd rm : RegNum) (imm : BitVec 16) (s : State) : Result :=
  .next (logicTo rd ((s.x rm) &&& (imm32 imm)) s)

/-- `AND Rd <- Rm & sh(Rn)` (R164). -/
def execAndR (rd rm : RegNum) (op : ShiftedReg) (s : State) : Result :=
  withShifted s op fun b => .next (logicTo rd ((s.x rm) &&& b) s)

/-- `BIC Rd <- Rm & ~imm` (R165). -/
def execBic (rd rm : RegNum) (imm : BitVec 16) (s : State) : Result :=
  .next (logicTo rd ((s.x rm) &&& ~~~(imm32 imm)) s)

/-- `BIC Rd <- Rm & ~sh(Rn)` (R166). -/
def execBicR (rd rm : RegNum) (op : ShiftedReg) (s : State) : Result :=
  withShifted s op fun b => .next (logicTo rd ((s.x rm) &&& ~~~b) s)

/-- `OR Rd <- Rm | imm` (R167). -/
def execOr (rd rm : RegNum) (imm : BitVec 16) (s : State) : Result :=
  .next (logicTo rd ((s.x rm) ||| (imm32 imm)) s)

/-- `OR Rd <- Rm | sh(Rn)` (R168). -/
def execOrR (rd rm : RegNum) (op : ShiftedReg) (s : State) : Result :=
  withShifted s op fun b => .next (logicTo rd ((s.x rm) ||| b) s)

/-- `XOR Rd <- Rm ^ imm` (R169). -/
def execXor (rd rm : RegNum) (imm : BitVec 16) (s : State) : Result :=
  .next (logicTo rd ((s.x rm) ^^^ (imm32 imm)) s)

/-- `XOR Rd <- Rm ^ sh(Rn)` (R170). -/
def execXorR (rd rm : RegNum) (op : ShiftedReg) (s : State) : Result :=
  withShifted s op fun b => .next (logicTo rd ((s.x rm) ^^^ b) s)

/-- `CMP Rm - imm`: the flags of the difference, no register (R171). -/
def execCmp (rm : RegNum) (imm : BitVec 16) (s : State) : Result :=
  .next ((s.setFlags (subFlags (s.x rm) (imm32 imm) false)).advance)

/-- `CMP Rm - sh(Rn)`: the flags of the difference, no register (R172). -/
def execCmpR (rm : RegNum) (op : ShiftedReg) (s : State) : Result :=
  withShifted s op fun b => .next ((s.setFlags (subFlags (s.x rm) b false)).advance)

/-- `TST Rm & imm`: the flags of the conjunction, no register (R173). -/
def execTst (rm : RegNum) (imm : BitVec 16) (s : State) : Result :=
  .next ((s.logicFlags ((s.x rm) &&& (imm32 imm))).advance)

/-- `TST Rm & sh(Rn)`: the flags of the conjunction, no register (R174). -/
def execTstR (rm : RegNum) (op : ShiftedReg) (s : State) : Result :=
  withShifted s op fun b => .next ((s.logicFlags ((s.x rm) &&& b)).advance)

end Sys2Proof.Machine
end

