-- ==== Sys2Proof/Machine/Control.lean ====
section
/-! DEFINITION. `B<c>`, `B<c>L` and `INT` (43_branch_int.md, R180 to R182): the spec gives them no encoding, no
condition table, no offset format and no effect, and has the model refuse each by name (D4). -/

namespace Sys2Proof.Machine

/-- `B<c>` (R180). -/
def execBc (_imm : BitVec 16) (s : State) : Result :=
  match s.config.branchEncoding, s.config.condTable with
  | .none, .none => .refused (.noEncoding "B<c>")

/-- `B<c>L` (R181). -/
def execBcl (_imm : BitVec 16) (s : State) : Result :=
  match s.config.branchEncoding, s.config.condTable with
  | .none, .none => .refused (.noEncoding "B<c>L")

/-- `INT` (R182). -/
def execInt (_imm : BitVec 16) (s : State) : Result :=
  match s.config.intEncoding with
  | .none => .refused (.noEncoding "INT")

end Sys2Proof.Machine
end

