-- ==== Sys2Proof/Machine/LoadStore.lean ====
section
/-! DEFINITION. LDR and STR (40_load_store.md, R130 to R133), with the size of the access as a parameter of the
shared operations. Rd, Rm and Rn are read before anything is written. -/

namespace Sys2Proof.Machine

/-- A load of a size at an address into Rd (R130). -/
def load (z : Size) (rd : RegNum) (a : Word) (s : State) : Result :=
  withAccess s a (bytesOf z) (s.writeBack rd (s.loadValue z a))

/-- A store of the low bytes of Rd at an address (R132). -/
def store (z : Size) (rd : RegNum) (a : Word) (s : State) : Result :=
  withAccess s a (bytesOf z) (s.memWrite a (bytesOf z) (s.x rd)).advance

/-- `LDR.B Rd <- [Rm + imm]` (R130). -/
def execLdrB (rd rm : RegNum) (imm : BitVec 14) (s : State) : Result :=
  load .b rd (s.addrImm rm imm) s

/-- `LDR.W Rd <- [Rm + imm]` (R130). -/
def execLdrW (rd rm : RegNum) (imm : BitVec 14) (s : State) : Result :=
  load .w rd (s.addrImm rm imm) s

/-- `LDR.D Rd <- [Rm + imm]` (R130). -/
def execLdrD (rd rm : RegNum) (imm : BitVec 14) (s : State) : Result :=
  load .d rd (s.addrImm rm imm) s

/-- `LDR.B Rd <- [Rm + sh(Rn)]` (R131). -/
def execLdrBR (rd rm : RegNum) (op : ShiftedReg) (s : State) : Result :=
  withShifted s op fun b => load .b rd (s.x rm + b) s

/-- `LDR.W Rd <- [Rm + sh(Rn)]` (R131). -/
def execLdrWR (rd rm : RegNum) (op : ShiftedReg) (s : State) : Result :=
  withShifted s op fun b => load .w rd (s.x rm + b) s

/-- `LDR.D Rd <- [Rm + sh(Rn)]` (R131). -/
def execLdrDR (rd rm : RegNum) (op : ShiftedReg) (s : State) : Result :=
  withShifted s op fun b => load .d rd (s.x rm + b) s

/-- `STR.B [Rm + imm] <- Rd` (R132). -/
def execStrB (rd rm : RegNum) (imm : BitVec 14) (s : State) : Result :=
  store .b rd (s.addrImm rm imm) s

/-- `STR.W [Rm + imm] <- Rd` (R132). -/
def execStrW (rd rm : RegNum) (imm : BitVec 14) (s : State) : Result :=
  store .w rd (s.addrImm rm imm) s

/-- `STR.D [Rm + imm] <- Rd` (R132). -/
def execStrD (rd rm : RegNum) (imm : BitVec 14) (s : State) : Result :=
  store .d rd (s.addrImm rm imm) s

/-- `STR.B [Rm + sh(Rn)] <- Rd` (R133). -/
def execStrBR (rd rm : RegNum) (op : ShiftedReg) (s : State) : Result :=
  withShifted s op fun b => store .b rd (s.x rm + b) s

/-- `STR.W [Rm + sh(Rn)] <- Rd` (R133). -/
def execStrWR (rd rm : RegNum) (op : ShiftedReg) (s : State) : Result :=
  withShifted s op fun b => store .w rd (s.x rm + b) s

/-- `STR.D [Rm + sh(Rn)] <- Rd` (R133). -/
def execStrDR (rd rm : RegNum) (op : ShiftedReg) (s : State) : Result :=
  withShifted s op fun b => store .d rd (s.x rm + b) s

end Sys2Proof.Machine
end

