-- ==== Sys2Proof/Machine/Move.lean ====
section
/-! DEFINITION. MOVT and the four MOV forms (41_move.md, R140 to R144). None changes the ALU flags but the write of
FLAGS itself. -/

namespace Sys2Proof.Machine

/-- `MOVT Rd <- imm`: the upper half of Rd (R101, R140). -/
def execMovt (rd : RegNum) (imm : BitVec 16) (s : State) : Result :=
  .next (s.writeBack rd (imm ++ (s.x rd).extractLsb' 0 16))

/-- `MOV Rd <- imm` (R141). -/
def execMov (rd : RegNum) (imm : BitVec 16) (s : State) : Result :=
  .next (s.writeBack rd (imm32 imm))

/-- `MOV Rd <- sh(Rn)` (R142). -/
def execMovR (rd : RegNum) (op : ShiftedReg) (s : State) : Result :=
  withShifted s op fun v => .next (s.writeBack rd v)

/-- Read what a banked MOV names into Rd: a register of any bank, FLAGS (R34) or MCR (R43) with their reserved bits
drawn. -/
def readBanked (rd : RegNum) (g : BankedReg) (s : State) : State :=
  match g with
  | .reg p => s.writeBack rd (s.get p)
  | .flags =>
    (s.skipDraws 2).writeBack rd
      (flagsWord s.flags ((s.drawn 0).extractLsb' 0 20) ((s.drawn 1).extractLsb' 0 8))
  | .mcr =>
    (s.skipDraws 2).writeBack rd
      (mcrWord s.mcr ((s.drawn 0).extractLsb' 0 2) ((s.drawn 1).extractLsb' 0 1))

/-- `MOV Rd <- Rm_b` (R143). -/
def execMovFromBank (rd rm : RegNum) (bank : BankSel) (s : State) : Result :=
  match bankedReg bank rm with
  | .ok g => .next (readBanked rd g s)
  | .error r => .refused r

/-- Write what a banked MOV names: a register of any bank (the pc among them, R29), FLAGS (R34), or MCR, where a
value with bit 14 set is refused (R43, R210). -/
def writeBanked (g : BankedReg) (v : Word) (s : State) : Result :=
  match g with
  | .reg p => .next (s.advance.put p v)
  | .flags => .next (s.advance.setFlags (flagsOfWord v))
  | .mcr => if v.getLsbD 14 then .refused .debugMode else .next (s.advance.setMcr (mcrOfWord v))

/-- `MOV Rd_b <- Rm` (R144). -/
def execMovToBank (rd rm : RegNum) (bank : BankSel) (s : State) : Result :=
  match bankedReg bank rd with
  | .ok g => writeBanked g (s.x rm) s
  | .error r => .refused r

end Sys2Proof.Machine
end

