-- ==== Sys2Proof/Machine/Dispatch.lean ====
section
/-! DEFINITION. The dispatch: one arm per constructor of `Instr`, each one direct call of its meaning. -/

namespace Sys2Proof.Machine

def exec (i : Instr) (s : State) : Host.Outcome State Fault Refusal :=
  match i with
  | .ldrB rd rm imm => Sys2Proof.Machine.execLdrB rd rm imm s
  | .ldrW rd rm imm => Sys2Proof.Machine.execLdrW rd rm imm s
  | .ldrD rd rm imm => Sys2Proof.Machine.execLdrD rd rm imm s
  | .ldrBR rd rm op => Sys2Proof.Machine.execLdrBR rd rm op s
  | .ldrWR rd rm op => Sys2Proof.Machine.execLdrWR rd rm op s
  | .ldrDR rd rm op => Sys2Proof.Machine.execLdrDR rd rm op s
  | .strB rd rm imm => Sys2Proof.Machine.execStrB rd rm imm s
  | .strW rd rm imm => Sys2Proof.Machine.execStrW rd rm imm s
  | .strD rd rm imm => Sys2Proof.Machine.execStrD rd rm imm s
  | .strBR rd rm op => Sys2Proof.Machine.execStrBR rd rm op s
  | .strWR rd rm op => Sys2Proof.Machine.execStrWR rd rm op s
  | .strDR rd rm op => Sys2Proof.Machine.execStrDR rd rm op s
  | .movt rd imm => Sys2Proof.Machine.execMovt rd imm s
  | .mov rd imm => Sys2Proof.Machine.execMov rd imm s
  | .movR rd op => Sys2Proof.Machine.execMovR rd op s
  | .movFromBank rd rm bank => Sys2Proof.Machine.execMovFromBank rd rm bank s
  | .movToBank rd rm bank => Sys2Proof.Machine.execMovToBank rd rm bank s
  | .add rd rm imm => Sys2Proof.Machine.execAdd rd rm imm s
  | .addR rd rm op => Sys2Proof.Machine.execAddR rd rm op s
  | .addc rd rm imm => Sys2Proof.Machine.execAddc rd rm imm s
  | .addcR rd rm op => Sys2Proof.Machine.execAddcR rd rm op s
  | .sub rd rm imm => Sys2Proof.Machine.execSub rd rm imm s
  | .subR rd rm op => Sys2Proof.Machine.execSubR rd rm op s
  | .subc rd rm imm => Sys2Proof.Machine.execSubc rd rm imm s
  | .subcR rd rm op => Sys2Proof.Machine.execSubcR rd rm op s
  | .and rd rm imm => Sys2Proof.Machine.execAnd rd rm imm s
  | .andR rd rm op => Sys2Proof.Machine.execAndR rd rm op s
  | .bic rd rm imm => Sys2Proof.Machine.execBic rd rm imm s
  | .bicR rd rm op => Sys2Proof.Machine.execBicR rd rm op s
  | .or rd rm imm => Sys2Proof.Machine.execOr rd rm imm s
  | .orR rd rm op => Sys2Proof.Machine.execOrR rd rm op s
  | .xor rd rm imm => Sys2Proof.Machine.execXor rd rm imm s
  | .xorR rd rm op => Sys2Proof.Machine.execXorR rd rm op s
  | .cmp rm imm => Sys2Proof.Machine.execCmp rm imm s
  | .cmpR rm op => Sys2Proof.Machine.execCmpR rm op s
  | .tst rm imm => Sys2Proof.Machine.execTst rm imm s
  | .tstR rm op => Sys2Proof.Machine.execTstR rm op s
  | .bc imm => Sys2Proof.Machine.execBc imm s
  | .bcl imm => Sys2Proof.Machine.execBcl imm s
  | .int imm => Sys2Proof.Machine.execInt imm s

end Sys2Proof.Machine
end

