-- ==== Sys2Proof/Machine/Step.lean ====
section
/-! DEFINITION. One step of the processor (R116): an instruction boundary, then the run of the instruction that it
leads to. -/

namespace Sys2Proof.Machine

/-- One step (R116). The meaning of an instruction also sets the pc (R29, R30), so a step adds nothing after it. -/
def step (s : State) : Host.Outcome State Fault Refusal :=
  match boundary s with
  | .run i t => exec i t
  | .stop o => o

/-- `s` with the instruction whose bits are `w` placed at the pc by the launch (log entry 17). -/
def State.withFetchWord (s : State) (nbits w : Nat) : State :=
  s.placeWord (BitVec.ofNat 32 (w % 2 ^ nbits))

end Sys2Proof.Machine
end

