-- ==== Sys2Proof/Safety.lean ====
section
/-! DEFINITION. The terms claims use: when an access, a fetch and a step go on, the invariant of the machine's data,
and which registers and memory an instruction names. -/

namespace Sys2Proof.Machine

/-- The invariant of the state's data: memory is in canonical form and the addresses stored to are a rising list of
32-bit addresses. -/
abbrev State.Inv (s : State) : Prop := Memory.wf s.mem = true ∧ addrsFrom 0 s.stored = true

/-- #AC is not raised for an access of `n` bytes at `a` (R69). -/
abbrev NoAc (c : Config) (a : Word) (n : Nat) : Prop :=
  c.alignCheck = true → (c.acRule = .fourByte → a.toNat % 4 = 0) ∧ (c.acRule = .natural → a.toNat % n = 0)

/-- The bytes `a` to `a + n - 1` lie in MEM_DOMAIN (R63). -/
abbrev BytesInDomain (c : Config) (a : Word) (n : Nat) : Prop :=
  ∀ k, k < n → inDomain c (a + BitVec.ofNat 32 k).toNat = true

/-- An access of `n` bytes at `a` completes: no #AC (R69), aligned to its size (R70), in MEM_DOMAIN (R63). -/
abbrev AccessOk (s : State) (a : Word) (n : Nat) : Prop :=
  NoAc s.config a n ∧ a.toNat % n = 0 ∧ BytesInDomain s.config a n

/-- The next step fetches: not at END_PC (R228), no interrupt asked for (R199), not in debug mode (R210), the pc
aligned (R31), its four bytes in MEM_DOMAIN (R63) and none of them stored to since launch (R79). -/
abbrev Fetches (s : State) : Prop :=
  s.config.endPc ≠ some s.pc ∧ (s.config.irqOracle = .never ∨ s.mcr.i = false) ∧ s.mcr.dbg = false ∧
    s.pc.toNat % 4 = 0 ∧ BytesInDomain s.config s.pc 4 ∧
    ∀ k, k < 4 → (s.pc + BitVec.ofNat 32 k).toNat ∉ s.stored

/-- The address and the size of the access of a load or store that does not raise #UD. -/
def accessOf (s : State) : Instr → Option (Word × Nat)
  | .ldrB _ rm imm | .strB _ rm imm => some (s.addrImm rm imm, 1)
  | .ldrW _ rm imm | .strW _ rm imm => some (s.addrImm rm imm, 2)
  | .ldrD _ rm imm | .strD _ rm imm => some (s.addrImm rm imm, 4)
  | .ldrBR _ rm op | .strBR _ rm op => if op.rn = 15#4 then none else some (s.addrReg rm op, 1)
  | .ldrWR _ rm op | .strWR _ rm op => if op.rn = 15#4 then none else some (s.addrReg rm op, 2)
  | .ldrDR _ rm op | .strDR _ rm op => if op.rn = 15#4 then none else some (s.addrReg rm op, 4)
  | .movt _ _ | .mov _ _ | .movR _ _ | .movFromBank _ _ _ | .movToBank _ _ _ => none
  | .add _ _ _ | .addR _ _ _ | .addc _ _ _ | .addcR _ _ _ | .sub _ _ _ | .subR _ _ _ => none
  | .subc _ _ _ | .subcR _ _ _ | .and _ _ _ | .andR _ _ _ | .bic _ _ _ | .bicR _ _ _ => none
  | .or _ _ _ | .orR _ _ _ | .xor _ _ _ | .xorR _ _ _ => none
  | .cmp _ _ | .cmpR _ _ | .tst _ _ | .tstR _ _ | .bc _ | .bcl _ | .int _ => none

end Sys2Proof.Machine

namespace Sys2Proof

/-- The register number in the field `rn` where Rn is an operand (R105). -/
def Instr.rn : Instr → Option RegNum
  | .ldrBR _ _ op | .ldrWR _ _ op | .ldrDR _ _ op => some op.rn
  | .strBR _ _ op | .strWR _ _ op | .strDR _ _ op => some op.rn
  | .movR _ op => some op.rn
  | .addR _ _ op | .addcR _ _ op | .subR _ _ op | .subcR _ _ op => some op.rn
  | .andR _ _ op | .bicR _ _ op | .orR _ _ op | .xorR _ _ op => some op.rn
  | .cmpR _ op | .tstR _ op => some op.rn
  | .ldrB _ _ _ | .ldrW _ _ _ | .ldrD _ _ _ | .strB _ _ _ | .strW _ _ _ | .strD _ _ _ => none
  | .movt _ _ | .mov _ _ | .movFromBank _ _ _ | .movToBank _ _ _ => none
  | .add _ _ _ | .addc _ _ _ | .sub _ _ _ | .subc _ _ _ => none
  | .and _ _ _ | .bic _ _ _ | .or _ _ _ | .xor _ _ _ | .cmp _ _ | .tst _ _ => none
  | .bc _ | .bcl _ | .int _ => none

/-- The instruction is an STR (R132, R133). -/
def Instr.isStore : Instr → Bool
  | .strB _ _ _ | .strW _ _ _ | .strD _ _ _ | .strBR _ _ _ | .strWR _ _ _ | .strDR _ _ _ => true
  | .ldrB _ _ _ | .ldrW _ _ _ | .ldrD _ _ _ | .ldrBR _ _ _ | .ldrWR _ _ _ | .ldrDR _ _ _ => false
  | .movt _ _ | .mov _ _ | .movR _ _ | .movFromBank _ _ _ | .movToBank _ _ _ => false
  | .add _ _ _ | .addR _ _ _ | .addc _ _ _ | .addcR _ _ _ | .sub _ _ _ | .subR _ _ _ => false
  | .subc _ _ _ | .subcR _ _ _ | .and _ _ _ | .andR _ _ _ | .bic _ _ _ | .bicR _ _ _ => false
  | .or _ _ _ | .orR _ _ _ | .xor _ _ _ | .xorR _ _ _ => false
  | .cmp _ _ | .cmpR _ _ | .tst _ _ | .tstR _ _ | .bc _ | .bcl _ | .int _ => false

/-- The instruction is one of the twenty of the ALU class (R150). -/
def Instr.isAlu : Instr → Bool
  | .add _ _ _ | .addR _ _ _ | .addc _ _ _ | .addcR _ _ _ | .sub _ _ _ | .subR _ _ _ => true
  | .subc _ _ _ | .subcR _ _ _ | .and _ _ _ | .andR _ _ _ | .bic _ _ _ | .bicR _ _ _ => true
  | .or _ _ _ | .orR _ _ _ | .xor _ _ _ | .xorR _ _ _ => true
  | .cmp _ _ | .cmpR _ _ | .tst _ _ | .tstR _ _ => true
  | .strB _ _ _ | .strW _ _ _ | .strD _ _ _ | .strBR _ _ _ | .strWR _ _ _ | .strDR _ _ _ => false
  | .ldrB _ _ _ | .ldrW _ _ _ | .ldrD _ _ _ | .ldrBR _ _ _ | .ldrWR _ _ _ | .ldrDR _ _ _ => false
  | .movt _ _ | .mov _ _ | .movR _ _ | .movFromBank _ _ _ | .movToBank _ _ _ => false
  | .bc _ | .bcl _ | .int _ => false

/-- The register number in the field `rd` where the instruction writes it in the current mode's bank (R25). -/
def Instr.dest : Instr → Option RegNum
  | .ldrB rd _ _ | .ldrW rd _ _ | .ldrD rd _ _ => some rd
  | .ldrBR rd _ _ | .ldrWR rd _ _ | .ldrDR rd _ _ => some rd
  | .movt rd _ | .mov rd _ | .movR rd _ | .movFromBank rd _ _ => some rd
  | .add rd _ _ | .addc rd _ _ | .sub rd _ _ | .subc rd _ _ => some rd
  | .addR rd _ _ | .addcR rd _ _ | .subR rd _ _ | .subcR rd _ _ => some rd
  | .and rd _ _ | .bic rd _ _ | .or rd _ _ | .xor rd _ _ => some rd
  | .andR rd _ _ | .bicR rd _ _ | .orR rd _ _ | .xorR rd _ _ => some rd
  | .strB _ _ _ | .strW _ _ _ | .strD _ _ _ | .strBR _ _ _ | .strWR _ _ _ | .strDR _ _ _ => none
  | .movToBank _ _ _ | .cmp _ _ | .cmpR _ _ | .tst _ _ | .tstR _ _ => none
  | .bc _ | .bcl _ | .int _ => none

end Sys2Proof
end

