-- ==== Sys2Proof/Certificates/Slice0/Obligations.lean ====
section
/-! DEFINITION. The statements about the model, one `Obligations.<Name>` each, and the predicates they are written in.
A statement that rests on a decision of the spec (D<n>) or on a log entry says so in its docstring. -/

namespace Sys2Proof.Claims

open Sys2Proof.Machine

/-- The registers after an instruction: the destination holds `v`, the pc goes on by 4 unless it is the
destination, every other register is as before. -/
def RegsAre (s t : State) (dst : Option Reg) (v : Word) : Prop :=
  ∀ g : Reg, t.get g = if dst = some g then v else if g = .pc then s.pc + 4#32 else s.get g

/-- MCR, every byte of memory, the addresses stored to and the configuration are as before. -/
def Kept (s t : State) : Prop :=
  t.mcr = s.mcr ∧ (∀ a, Memory.read t.mem a = Memory.read s.mem a) ∧ t.stored = s.stored ∧ t.config = s.config

/-- `i` completes: `v` in the destination, the flags `f`, the rest as before, no free value drawn. -/
def RunsTo (i : Instr) (s : State) (dst : Option Reg) (v : Word) (f : Flags) : Prop :=
  ∃ t, exec i s = .next t ∧ RegsAre s t dst v ∧ t.flags = f ∧ Kept s t ∧ t.draws = s.draws

/-- N and Z are the sign and the zero test of a result (R150). -/
def NzOf (res : Word) (f : Flags) : Prop := (f.n = true ↔ 2 ^ 31 ≤ res.toNat) ∧ (f.z = true ↔ res.toNat = 0)

/-- The result and flags of an addition, by exact arithmetic (R150, R151). -/
def AddLaw (a b : Word) (cin : Bool) (res : Word) (f : Flags) : Prop :=
  let usum := a.toNat + b.toNat + cin.toNat
  let ssum := a.toInt + b.toInt + (cin.toNat : Int)
  res.toNat = usum % 2 ^ 32 ∧ NzOf res f ∧ (f.c = true ↔ 2 ^ 32 ≤ usum) ∧
    (f.v = true ↔ ssum < -2 ^ 31 ∨ 2 ^ 31 - 1 < ssum)

/-- The result and flags of a subtraction, by exact arithmetic; C is the borrow (R150, R152). -/
def SubLaw (a b : Word) (bin : Bool) (res : Word) (f : Flags) : Prop :=
  let udiff : Int := (a.toNat : Int) - (b.toNat : Int) - (bin.toNat : Int)
  let sdiff : Int := a.toInt - b.toInt - (bin.toNat : Int)
  (res.toNat : Int) = udiff % 2 ^ 32 ∧ NzOf res f ∧ (f.c = true ↔ udiff < 0) ∧
    (f.v = true ↔ sdiff < -2 ^ 31 ∨ 2 ^ 31 - 1 < sdiff)

/-- `i` completes with a result and flags that obey a law, the result in the destination, the rest as before. -/
def ArithRuns (i : Instr) (s : State) (dst : Option Reg) (law : Word → Flags → Prop) : Prop :=
  ∃ t res, exec i s = .next t ∧ law res t.flags ∧ RegsAre s t dst res ∧ Kept s t ∧ t.draws = s.draws

/-- `i` completes with a logical result: N and Z from it, C and V by LOGIC_CV, of which `draw` says nothing
(R150, R153), the rest as before. -/
def LogicRuns (i : Instr) (s : State) (dst : Option Reg) (res : Word) : Prop :=
  ∃ t, exec i s = .next t ∧ RegsAre s t dst res ∧ NzOf res t.flags ∧
    (s.config.logicCV = .unchanged → t.flags.c = s.flags.c ∧ t.flags.v = s.flags.v) ∧
    (s.config.logicCV = .cleared → t.flags.c = false ∧ t.flags.v = false) ∧ Kept s t

/-- The weight of byte `k` of an access of `n` bytes, as a power of 256 (R66, R67). -/
def byteRank (o : ByteOrder) (n k : Nat) : Nat :=
  match o with
  | .little => k
  | .big => n - 1 - k

/-- The number that the `n` bytes at `a` stand for (R66). -/
def valueAt (s : State) (a : Word) (n : Nat) : Nat :=
  ((List.range n).map fun k =>
    (Memory.read s.mem (a + BitVec.ofNat 32 k).toNat).toNat * 256 ^ byteRank s.config.byteOrder n k).sum

/-- What a load of `n` bytes at `a` puts in Rd: the value extended by NARROW_LOAD_EXT (R130, D13). -/
def loaded (s : State) (a : Word) (n : Nat) : Word :=
  match s.config.narrowLoadExt with
  | .zero => (BitVec.ofNat (8 * n) (valueAt s a n)).setWidth 32
  | .sign => (BitVec.ofNat (8 * n) (valueAt s a n)).signExtend 32

/-- `i` completes as a store of the low `n` bytes of `v` at `a` (R67, R79): those bytes hold it, every other byte,
every register but the pc, the flags and MCR are as before. -/
def StoreRuns (i : Instr) (s : State) (a : Word) (n : Nat) (v : Word) : Prop :=
  ∃ t, exec i s = .next t ∧ (∀ g : Reg, t.get g = if g = .pc then s.pc + 4#32 else s.get g) ∧
    t.flags = s.flags ∧ t.mcr = s.mcr ∧ t.config = s.config ∧ t.draws = s.draws ∧
    (∀ k, k < n → (Memory.read t.mem (a + BitVec.ofNat 32 k).toNat).toNat =
      v.toNat / 256 ^ byteRank s.config.byteOrder n k % 256) ∧
    (∀ x, (∀ k, k < n → x ≠ (a + BitVec.ofNat 32 k).toNat) → Memory.read t.mem x = Memory.read s.mem x) ∧
    ∀ x, x ∈ t.stored ↔ x ∈ s.stored ∨ ∃ k, k < n ∧ x = (a + BitVec.ofNat 32 k).toNat

/-- The bits of the fields that an instruction does not read (the table of R111). -/
def notRead : Instr → Word
  | .ldrBR _ _ _ | .ldrWR _ _ _ | .ldrDR _ _ _ | .strBR _ _ _ | .strWR _ _ _ | .strDR _ _ _ => 0x00000C03#32
  | .movt _ _ | .mov _ _ => 0x000F0000#32
  | .movR _ _ => 0x000F0F03#32
  | .movFromBank _ _ _ | .movToBank _ _ _ => 0x0000FFFC#32
  | .addR _ _ _ | .addcR _ _ _ | .subR _ _ _ | .subcR _ _ _ => 0x00000F03#32
  | .andR _ _ _ | .bicR _ _ _ | .orR _ _ _ | .xorR _ _ _ => 0x00000F03#32
  | .cmp _ _ | .tst _ _ => 0x00F00000#32
  | .cmpR _ _ | .tstR _ _ => 0x00F00F03#32
  | .ldrB _ _ _ | .ldrW _ _ _ | .ldrD _ _ _ | .strB _ _ _ | .strW _ _ _ | .strD _ _ _ => 0x00000000#32
  | .add _ _ _ | .addc _ _ _ | .sub _ _ _ | .subc _ _ _ => 0x00000000#32
  | .and _ _ _ | .bic _ _ _ | .or _ _ _ | .xor _ _ _ => 0x00000000#32
  | .bc _ | .bcl _ | .int _ => 0x00000000#32

/-- The 8-bit opcode of a 6-bit opcode of R108: the same number, or its bits left-aligned (R96, D1). -/
def placed (p : OpcodePlacement) (op6 : Nat) : Nat :=
  match p with
  | .low6 => op6
  | .high6 => 4 * op6

/-- The 29 assigned 6-bit opcodes of R108. -/
def assigned : List Nat :=
  [0x08, 0x18, 0x09, 0x19, 0x01, 0x00, 0x11, 0x12, 0x13, 0x20, 0x30, 0x21, 0x31, 0x22, 0x32, 0x23, 0x33, 0x24, 0x34,
    0x25, 0x35, 0x26, 0x36, 0x27, 0x37, 0x2A, 0x3A, 0x2C, 0x3C]

/-- The table of R111: the 6-bit opcodes of R108, each with the bits of the fields its instructions do not read. -/
def unreadTable : List (Nat × Word) :=
  [(0x08, 0x00000000#32), (0x09, 0x00000000#32), (0x18, 0x00000C03#32), (0x19, 0x00000C03#32),
    (0x01, 0x000F0000#32), (0x00, 0x000F0000#32), (0x11, 0x000F0F03#32), (0x12, 0x0000FFFC#32),
    (0x13, 0x0000FFFC#32), (0x20, 0x00000000#32), (0x21, 0x00000000#32), (0x22, 0x00000000#32),
    (0x23, 0x00000000#32), (0x24, 0x00000000#32), (0x25, 0x00000000#32), (0x26, 0x00000000#32),
    (0x27, 0x00000000#32), (0x30, 0x00000F03#32), (0x31, 0x00000F03#32), (0x32, 0x00000F03#32),
    (0x33, 0x00000F03#32), (0x34, 0x00000F03#32), (0x35, 0x00000F03#32), (0x36, 0x00000F03#32),
    (0x37, 0x00000F03#32), (0x2A, 0x00F00000#32), (0x2C, 0x00F00000#32), (0x3A, 0x00F00F03#32),
    (0x3C, 0x00F00F03#32)]

/-- `w` has the fields of an I-format instruction with the 8-bit opcode `op8` (R92). -/
def FieldsI (w : Word) (op8 : Nat) (rd rm : RegNum) (imm : BitVec 16) : Prop :=
  w.toNat / 2 ^ 24 = op8 ∧ rd.toNat = w.toNat / 2 ^ 20 % 16 ∧ rm.toNat = w.toNat / 2 ^ 16 % 16 ∧
    imm.toNat = w.toNat % 2 ^ 16

/-- `w` has the fields of an M-format load or store (R94; size code by the default SIZE_CODE, D3). -/
def FieldsM (w : Word) (op8 size : Nat) (rd rm : RegNum) (imm : BitVec 14) : Prop :=
  w.toNat / 2 ^ 24 = op8 ∧ rd.toNat = w.toNat / 2 ^ 20 % 16 ∧ rm.toNat = w.toNat / 2 ^ 16 % 16 ∧
    size = w.toNat / 2 ^ 14 % 4 ∧ imm.toNat = w.toNat % 2 ^ 14

/-- The number of a direction in the table of R103. -/
def dirNumber : ShiftDir → Nat
  | .left => 0
  | .right => 1
  | .signedRight => 2
  | .rotateRight => 3

/-- The number of a bank in the table of R106. -/
def bankNumber : BankSel → Nat
  | .reserved => 0
  | .supervisor => 1
  | .interrupt => 2
  | .bank3 => 3

/-- `w` has the fields of an R-format instruction with the operand `sh(Rn)` (R93, R103). -/
def FieldsR (w : Word) (op8 : Nat) (rd rm : RegNum) (op : ShiftedReg) : Prop :=
  w.toNat / 2 ^ 24 = op8 ∧ rd.toNat = w.toNat / 2 ^ 20 % 16 ∧ rm.toNat = w.toNat / 2 ^ 16 % 16 ∧
    op.rn.toNat = w.toNat / 2 ^ 12 % 16 ∧ op.amt.toNat = w.toNat / 2 ^ 4 % 16 ∧
    dirNumber op.dir = w.toNat / 2 ^ 2 % 4

/-- The word an instruction was decoded from has the instruction's fields at the places of R92 to R94, and the
opcode of R108 where `p` puts it. A register field that the instruction does not read is taken from the word. -/
def FieldsOf (p : OpcodePlacement) (w : Word) : Instr → Prop
  | .ldrB rd rm imm => FieldsM w (placed p 0x08) 0 rd rm imm
  | .ldrW rd rm imm => FieldsM w (placed p 0x08) 1 rd rm imm
  | .ldrD rd rm imm => FieldsM w (placed p 0x08) 2 rd rm imm
  | .ldrBR rd rm op => FieldsR w (placed p 0x18) rd rm op ∧ w.toNat / 2 ^ 8 % 4 = 0
  | .ldrWR rd rm op => FieldsR w (placed p 0x18) rd rm op ∧ w.toNat / 2 ^ 8 % 4 = 1
  | .ldrDR rd rm op => FieldsR w (placed p 0x18) rd rm op ∧ w.toNat / 2 ^ 8 % 4 = 2
  | .strB rd rm imm => FieldsM w (placed p 0x09) 0 rd rm imm
  | .strW rd rm imm => FieldsM w (placed p 0x09) 1 rd rm imm
  | .strD rd rm imm => FieldsM w (placed p 0x09) 2 rd rm imm
  | .strBR rd rm op => FieldsR w (placed p 0x19) rd rm op ∧ w.toNat / 2 ^ 8 % 4 = 0
  | .strWR rd rm op => FieldsR w (placed p 0x19) rd rm op ∧ w.toNat / 2 ^ 8 % 4 = 1
  | .strDR rd rm op => FieldsR w (placed p 0x19) rd rm op ∧ w.toNat / 2 ^ 8 % 4 = 2
  | .movt rd imm => FieldsI w (placed p 0x01) rd (BitVec.ofNat 4 (w.toNat / 2 ^ 16)) imm
  | .mov rd imm => FieldsI w (placed p 0x00) rd (BitVec.ofNat 4 (w.toNat / 2 ^ 16)) imm
  | .movR rd op => FieldsR w (placed p 0x11) rd (BitVec.ofNat 4 (w.toNat / 2 ^ 16)) op
  | .movFromBank rd rm b =>
    FieldsI w (placed p 0x12) rd rm (BitVec.ofNat 16 w.toNat) ∧ bankNumber b = w.toNat % 4
  | .movToBank rd rm b =>
    FieldsI w (placed p 0x13) rd rm (BitVec.ofNat 16 w.toNat) ∧ bankNumber b = w.toNat % 4
  | .add rd rm imm => FieldsI w (placed p 0x20) rd rm imm
  | .addR rd rm op => FieldsR w (placed p 0x30) rd rm op
  | .addc rd rm imm => FieldsI w (placed p 0x21) rd rm imm
  | .addcR rd rm op => FieldsR w (placed p 0x31) rd rm op
  | .sub rd rm imm => FieldsI w (placed p 0x22) rd rm imm
  | .subR rd rm op => FieldsR w (placed p 0x32) rd rm op
  | .subc rd rm imm => FieldsI w (placed p 0x23) rd rm imm
  | .subcR rd rm op => FieldsR w (placed p 0x33) rd rm op
  | .and rd rm imm => FieldsI w (placed p 0x24) rd rm imm
  | .andR rd rm op => FieldsR w (placed p 0x34) rd rm op
  | .bic rd rm imm => FieldsI w (placed p 0x25) rd rm imm
  | .bicR rd rm op => FieldsR w (placed p 0x35) rd rm op
  | .or rd rm imm => FieldsI w (placed p 0x26) rd rm imm
  | .orR rd rm op => FieldsR w (placed p 0x36) rd rm op
  | .xor rd rm imm => FieldsI w (placed p 0x27) rd rm imm
  | .xorR rd rm op => FieldsR w (placed p 0x37) rd rm op
  | .cmp rm imm => FieldsI w (placed p 0x2A) (BitVec.ofNat 4 (w.toNat / 2 ^ 20)) rm imm
  | .cmpR rm op => FieldsR w (placed p 0x3A) (BitVec.ofNat 4 (w.toNat / 2 ^ 20)) rm op
  | .tst rm imm => FieldsI w (placed p 0x2C) (BitVec.ofNat 4 (w.toNat / 2 ^ 20)) rm imm
  | .tstR rm op => FieldsR w (placed p 0x3C) (BitVec.ofNat 4 (w.toNat / 2 ^ 20)) rm op
  | .bc _ | .bcl _ | .int _ => False

/-- The two outcomes agree on everything but the flags. -/
def AgreeButFlags : Result → Result → Prop
  | .next t, .next u => (∀ g : Reg, t.get g = u.get g) ∧ t.mcr = u.mcr ∧ t.mem = u.mem ∧ t.stored = u.stored ∧
      t.config = u.config ∧ t.draws = u.draws
  | .fault f, .fault g => f = g
  | .refused p, .refused q => p = q
  | _, _ => False

/-- The instructions whose result depends on a flag: ADDC and SUBC (R185), and the read of FLAGS itself (R33). -/
def readsFlags : Instr → Bool
  | .addc _ _ _ | .addcR _ _ _ | .subc _ _ _ | .subcR _ _ _ => true
  | .movFromBank _ rm b => decide (b = .bank3 ∧ rm = 0#4)
  | _ => false

/-- The instruction writes register number 15, so the next pc is what it writes (R29, R183). -/
def writesPc : Instr → Bool
  | .movToBank rd _ b => decide (rd = 15#4 ∧ (b = .supervisor ∨ b = .interrupt))
  | i => decide (i.dest = some 15#4)

end Sys2Proof.Claims

open Sys2Proof Sys2Proof.Machine Sys2Proof.Claims

/-- Words of 95_test_vectors.md section 2, one or more of each family, under the decisions D1, D2 and D3. -/
def Obligations.KnownWordsDecode : Prop :=
  decodeWord Config.default 0x08143FFF#32 = .instr (.ldrB 1 4 0x3FFF#14) ∧
    decodeWord Config.default 0x18243110#32 = .instr (.ldrWR 2 4 ⟨3, .left, 1⟩) ∧
    decodeWord Config.default 0x09048000#32 = .instr (.strD 0 4 0) ∧
    decodeWord Config.default 0x19142020#32 = .instr (.strBR 1 4 ⟨2, .left, 2⟩) ∧
    decodeWord Config.default 0x01001234#32 = .instr (.movt 0 0x1234) ∧
    decodeWord Config.default 0x111020F8#32 = .instr (.movR 1 ⟨2, .signedRight, 15⟩) ∧
    decodeWord Config.default 0x12280002#32 = .instr (.movFromBank 2 8 .interrupt) ∧
    decodeWord Config.default 0x13100003#32 = .instr (.movToBank 1 0 .bank3) ∧
    decodeWord Config.default 0x20210003#32 = .instr (.add 2 1 3) ∧
    decodeWord Config.default 0x33513000#32 = .instr (.subcR 5 1 ⟨3, .left, 0⟩) ∧
    decodeWord Config.default 0x3C012000#32 = .instr (.tstR 1 ⟨2, .left, 0⟩)

/-- No bit of an encoding is dropped (R91 to R108, D1 to D3, D6). -/
def Obligations.DecodeEncodeAgree : Prop :=
  ∀ (c : Config) (i : Instr), i.wellFormed c = true → ∃ w, encode c i = some w ∧ decodeWord c w = .instr i

/-- Each word has one meaning (R111 under RESERVED_FIELD_POLICY = refuse, D6; size codes by D3). -/
def Obligations.EncodeDecodeAgree : Prop :=
  ∀ (c : Config) (w : Word) (i : Instr), c.reservedFieldPolicy = .refuse →
    (∀ j k z, c.sizeCode.sizeOf j = some z → c.sizeCode.sizeOf k = some z → j = k) →
    decodeWord c w = .instr i → encode c i = some w

/-- The table of R111, with the policy of the HSC Core (D6); the policy refuse is UnreadFieldsRefused. -/
def Obligations.UnreadFieldsIgnored : Prop :=
  ∀ (c : Config) (w v : Word) (i : Instr), c.reservedFieldPolicy = .ignore → decodeWord c w = .instr i →
    v &&& ~~~(notRead i) = w &&& ~~~(notRead i) → decodeWord c v = .instr i

/-- The field tables of R91 to R94 and the opcode column of R108 where R96 puts it (both values of OPCODE_PLACEMENT,
D1), with D2 and D3. -/
def Obligations.FieldsAtTheirPlaces : Prop :=
  ∀ (c : Config) (w : Word) (i : Instr), c.sizeCode = Config.default.sizeCode →
    decodeWord c w = .instr i → FieldsOf c.opcodePlacement w i

/-- R110 and R96 under D1 and D5: the 29 values of R108; the codes R175 says not to infer are among the others. -/
def Obligations.UnassignedOpcodesStop : Prop :=
  ∀ (c : Config) (w : Word), (∀ op6 ∈ assigned, w.toNat / 2 ^ 24 ≠ placed c.opcodePlacement op6) →
    decodeWord c w = if c.unassignedOpcode = .ud then .ud else .refuse .unassignedOpcode

/-- R102 (D3, D7) in the order of R195 (D29), under both placements of R96 (D1). -/
def Obligations.ReservedSizeCodeStops : Prop :=
  ∀ (c : Config) (w : Word), c.sizeCode = Config.default.sizeCode → c.reservedFieldPolicy = .ignore →
    ((∃ op6 ∈ [0x08, 0x09], w.toNat / 2 ^ 24 = placed c.opcodePlacement op6) ∧ w.toNat / 2 ^ 14 % 4 = 3 →
      decodeWord c w = .refuse .reservedSizeCode) ∧
    ((∃ op6 ∈ [0x18, 0x19], w.toNat / 2 ^ 24 = placed c.opcodePlacement op6) ∧ w.toNat / 2 ^ 8 % 4 = 3 →
      decodeWord c w = if w.toNat / 2 ^ 12 % 16 = 15 then .ud else .refuse .reservedSizeCode)

/-- The instruction cycle R116 (its order is D29; R68 and R79 rest on D12 and D27). -/
def Obligations.StepRunsDecodedInstruction : Prop :=
  ∀ s : State, Fetches s →
    (∀ i, decodeWord s.config (s.memRead s.pc 4) = .instr i → step s = exec i s) ∧
    (decodeWord s.config (s.memRead s.pc 4) = .ud → step s = takeException s .ud) ∧
    ∀ r, decodeWord s.config (s.memRead s.pc 4) = .refuse r → step s = .refused (refusalOf r)

/-- Steps 1 to 5 of R116 in the order of R195 (D29), with R228 (D30; the outcome runOver is the model's, log entry
13), R210 (D28), R31 (D17), R63 (D26) and R79 (D27). Line 4 of R195 names outside MEM_DOMAIN and modified code
together; that the first is answered before the second is the model's reading (log entry 25, DEDUCED). -/
def Obligations.StopsBeforeDecode : Prop :=
  ∀ s : State, (s.config.endPc = some s.pc → step s = .refused .runOver) ∧
    (s.config.endPc ≠ some s.pc → s.config.irqOracle = .never ∨ s.mcr.i = false →
      (s.mcr.dbg = true → step s = .refused .debugMode) ∧
      (s.mcr.dbg = false →
        (s.pc.toNat % 4 ≠ 0 → step s = .refused .unalignedPc) ∧
        (s.pc.toNat % 4 = 0 →
          (¬ BytesInDomain s.config s.pc 4 → step s = .refused .outsideMemDomain) ∧
          (BytesInDomain s.config s.pc 4 → (∃ k, k < 4 ∧ (s.pc + BitVec.ofNat 32 k).toNat ∈ s.stored) →
            step s = .refused .modifiedCode))))

/-- R199 (D20) and step 2 of R116. The statement holds for every answer of the environment (log entry 9); that a
question advances the counter of free values by one is the model's (log entry 8, DESIGN CHOICE), and END_PC is shut
out because there step 1 of R116 has ended the run before (R228, D30; what a step then answers is log entry 13 and
StopsBeforeDecode). -/
def Obligations.InterruptAtBoundary : Prop :=
  ∀ s : State, s.config.endPc ≠ some s.pc → s.config.irqOracle = .anyTime → s.mcr.i = true →
    step s = match Config.irqRequest s.draws with
      | some n => takeException (s.skipDraws 1) (.interrupt n)
      | none => match issue (s.skipDraws 1) with
        | .run i t => exec i t
        | .stop o => o

/-- R190: the instructions are those whose `rn` field is an operand (`Instr.rn`). -/
def Obligations.PcAsRnRaisesUd : Prop :=
  ∀ (i : Instr) (s : State), (i.rn = some 15#4 → exec i s = takeException s .ud) ∧
    ∀ p, exec i s = .fault (.ud p) → i.rn = some 15#4

/-- R69 and R191 with the parameters ALIGN_CHECK and AC_RULE (D14): the model always raises. -/
def Obligations.MisalignedAddressRaisesAc : Prop :=
  ∀ (i : Instr) (s : State) (a : Word) (n : Nat), accessOf s i = some (a, n) → ¬ NoAc s.config a n →
    exec i s = takeException s (.ac a)

/-- R70 (D15) and R63 (D26) in the order of R195 (D29). -/
def Obligations.MisplacedAccessRefused : Prop :=
  ∀ (i : Instr) (s : State) (a : Word) (n : Nat), accessOf s i = some (a, n) → NoAc s.config a n →
    (a.toNat % n ≠ 0 → exec i s = .refused .misalignedAccess) ∧
    (a.toNat % n = 0 → ¬ BytesInDomain s.config a n → exec i s = .refused .outsideMemDomain)

/-- R192 says which causes there are. That a fault holds the pc is R196 (D19); which of its data the model keeps is
log entry 20 (DEDUCED); the supplied entry is log entry 10 (DESIGN CHOICE). -/
def Obligations.OnlyUdAndAcRaised : Prop :=
  ∀ (i : Instr) (s : State),
    (∀ f, exec i s = .fault f →
      (f = .ud s.pc ∧ i.rn = some 15#4) ∨ ∃ a n, f = .ac a s.pc ∧ accessOf s i = some (a, n)) ∧
    ∀ k t, s.config.trapEntry = .supplied k → exec i s = .next t →
      (∃ u, exec i { s with config := { s.config with trapEntry := .fault } } = .next u ∧
        t = { u with config := s.config }) ∨
      (i.rn = some 15#4 ∧ t = s.enterTrap k .ud) ∨
      ∃ a n, accessOf s i = some (a, n) ∧ t = s.enterTrap k (.ac a)

/-- R196 and R200 (D19). R200 gives an interrupt's fault its vector and R196 names the pc of a raising instruction
only: that an interrupt's fault holds the pc too is the model's (log entry 20, DEDUCED). -/
def Obligations.DefaultEntryIsFault : Prop :=
  ∀ (s : State) (a : Word) (n : BitVec 5), s.config.trapEntry = .fault →
    takeException s .ud = .fault (.ud s.pc) ∧ takeException s (.ac a) = .fault (.ac a s.pc) ∧
    takeException s (.interrupt n) = .fault (.interrupt n s.pc)

/-- R196 and R200 (D19, D23): the function of the state and the cause, and its constraints. The form of the entry
function is log entry 10 (DESIGN CHOICE); the constraints for #UD and #AC are log entry 11 (DEDUCED); the addresses
stored to and the debug fields are log entry 12 (DEDUCED). -/
def Obligations.SuppliedEntryConstraints : Prop :=
  ∀ (s : State) (k : Nat) (c : TrapCause), s.config.trapEntry = .supplied k → ∃ t, takeException s c = .next t ∧
    t.mode = .irq ∧ (∀ n, c = .interrupt n → t.mcr.v = n) ∧
    ((∀ n, c ≠ .interrupt n) → t.mcr.v = (Config.suppliedEntry k s c).vector) ∧
    t.mcr.f.getLsbD 3 = s.flags.n ∧ t.mcr.f.getLsbD 2 = s.flags.z ∧ t.mcr.f.getLsbD 1 = s.flags.c ∧
    t.mcr.f.getLsbD 0 = s.flags.v ∧
    (∀ j, t.get (.shared j) = s.get (.shared j)) ∧ (∀ j, t.get (.sup j) = s.get (.sup j)) ∧
    (∀ a, Memory.read t.mem a = Memory.read s.mem a) ∧
    t.get .pc = (Config.suppliedEntry k s c).pc ∧
    (∀ j : Fin 7, t.get (.irq j) = (Config.suppliedEntry k s c).bankI.get j) ∧
    t.mcr.i = (Config.suppliedEntry k s c).i ∧ t.flags = (Config.suppliedEntry k s c).flags ∧
    t.stored = s.stored ∧ t.mcr.debug = s.mcr.debug ∧ t.mcr.dsn = s.mcr.dsn ∧ t.config = s.config

/-- R130 with R66 and R69 to R70 (D1, D2, D3, D12, D13). -/
def Obligations.LoadImmediateResult : Prop :=
  ∀ (s : State) (rd rm : RegNum) (imm : BitVec 14),
    (AccessOk s (s.addrImm rm imm) 1 → RunsTo (.ldrB rd rm imm) s (some (regOf s.mode rd))
      (loaded s (s.x rm + imm.signExtend 32) 1) s.flags) ∧
    (AccessOk s (s.addrImm rm imm) 2 → RunsTo (.ldrW rd rm imm) s (some (regOf s.mode rd))
      (loaded s (s.x rm + imm.signExtend 32) 2) s.flags) ∧
    (AccessOk s (s.addrImm rm imm) 4 → RunsTo (.ldrD rd rm imm) s (some (regOf s.mode rd))
      (loaded s (s.x rm + imm.signExtend 32) 4) s.flags)

/-- R131 with R66 and R104 (D1, D3, D11, D12, D13, D18). -/
def Obligations.LoadRegisterResult : Prop :=
  ∀ (s : State) (rd rm : RegNum) (op : ShiftedReg), op.rn ≠ 15#4 →
    (AccessOk s (s.addrReg rm op) 1 → RunsTo (.ldrBR rd rm op) s (some (regOf s.mode rd))
      (loaded s (s.x rm + shiftWord (s.x op.rn) op.dir op.amt) 1) s.flags) ∧
    (AccessOk s (s.addrReg rm op) 2 → RunsTo (.ldrWR rd rm op) s (some (regOf s.mode rd))
      (loaded s (s.x rm + shiftWord (s.x op.rn) op.dir op.amt) 2) s.flags) ∧
    (AccessOk s (s.addrReg rm op) 4 → RunsTo (.ldrDR rd rm op) s (some (regOf s.mode rd))
      (loaded s (s.x rm + shiftWord (s.x op.rn) op.dir op.amt) 4) s.flags)

/-- R132 with R67 and R79 (D1, D2, D3, D12, D13, D27). The canonical form is kept by every step (StepKeepsInvariant).
-/
def Obligations.StoreImmediateResult : Prop :=
  ∀ (s : State) (rd rm : RegNum) (imm : BitVec 14), Memory.wf s.mem = true →
    (AccessOk s (s.addrImm rm imm) 1 → StoreRuns (.strB rd rm imm) s (s.addrImm rm imm) 1 (s.x rd)) ∧
    (AccessOk s (s.addrImm rm imm) 2 → StoreRuns (.strW rd rm imm) s (s.addrImm rm imm) 2 (s.x rd)) ∧
    (AccessOk s (s.addrImm rm imm) 4 → StoreRuns (.strD rd rm imm) s (s.addrImm rm imm) 4 (s.x rd))

/-- R133 with R67, R79 and R104 (D1, D3, D11, D12, D13, D18, D27). -/
def Obligations.StoreRegisterResult : Prop :=
  ∀ (s : State) (rd rm : RegNum) (op : ShiftedReg), Memory.wf s.mem = true → op.rn ≠ 15#4 →
    (AccessOk s (s.addrReg rm op) 1 → StoreRuns (.strBR rd rm op) s (s.addrReg rm op) 1 (s.x rd)) ∧
    (AccessOk s (s.addrReg rm op) 2 → StoreRuns (.strWR rd rm op) s (s.addrReg rm op) 2 (s.x rd)) ∧
    (AccessOk s (s.addrReg rm op) 4 → StoreRuns (.strDR rd rm op) s (s.addrReg rm op) 4 (s.x rd))

/-- R101. -/
def Obligations.MovtImmediateIsRaw : Prop :=
  (∀ (s : State) (rd : RegNum) (imm : BitVec 16), ∃ t, exec (.movt rd imm) s = .next t ∧
      (t.get (regOf s.mode rd)).toNat / 2 ^ 16 = imm.toNat) ∧
    ∀ (c : Config) (w : Word) (rd : RegNum) (imm : BitVec 16), decodeWord c w = .instr (.movt rd imm) →
      imm.toNat = w.toNat % 2 ^ 16

/-- R141 with R99, and R140 with R101 (the encoding by D1, the unread rm by D6); the pc as Rd and the pc that goes on
are R28 to R30 (D16, log entry 24). -/
def Obligations.MovImmediateResult : Prop :=
  ∀ (s : State) (rd : RegNum) (imm : BitVec 16),
    (∃ v : Word,
      v.toInt = imm.toInt ∧ (∀ k, k < 32 → v.getLsbD k = if k < 16 then imm.getLsbD k else imm.getLsbD 15) ∧
      RunsTo (.mov rd imm) s (some (regOf s.mode rd)) v s.flags) ∧
    ∃ v : Word, v.toNat = imm.toNat * 2 ^ 16 + (s.x rd).toNat % 2 ^ 16 ∧
      RunsTo (.movt rd imm) s (some (regOf s.mode rd)) v s.flags

/-- R142 with R104 (D1, D6, D11, D18). -/
def Obligations.MovRegisterResult : Prop :=
  ∀ (s : State) (rd : RegNum) (op : ShiftedReg), op.rn ≠ 15#4 →
    RunsTo (.movR rd op) s (some (regOf s.mode rd)) (shiftWord (s.x op.rn) op.dir op.amt) s.flags

/-- R143 with R26 and R204 (D1, D6). -/
def Obligations.MovFromBankRegisterResult : Prop :=
  ∀ (s : State) (rd rm : RegNum),
    RunsTo (.movFromBank rd rm .supervisor) s (some (regOf s.mode rd)) (s.get (regOf .supervisor rm)) s.flags ∧
    RunsTo (.movFromBank rd rm .interrupt) s (some (regOf s.mode rd)) (s.get (regOf .irq rm)) s.flags

/-- R143 with R34 and R43 (D22). -/
def Obligations.MovFromSystemRegisterResult : Prop :=
  ∀ (s : State) (rd : RegNum),
    (∃ t v, exec (.movFromBank rd 0#4 .bank3) s = .next t ∧ RegsAre s t (some (regOf s.mode rd)) v ∧
      v.getLsbD 11 = s.flags.n ∧ v.getLsbD 10 = s.flags.z ∧ v.getLsbD 9 = s.flags.c ∧ v.getLsbD 8 = s.flags.v ∧
      t.flags = s.flags ∧ Kept s t) ∧
    ∃ t v, exec (.movFromBank rd 1#4 .bank3) s = .next t ∧ RegsAre s t (some (regOf s.mode rd)) v ∧
      v.getLsbD 0 = s.mcr.i ∧ v.getLsbD 1 = s.mcr.s ∧ v.extractLsb' 3 5 = s.mcr.v ∧ v.extractLsb' 8 4 = s.mcr.f ∧
      v.extractLsb' 14 10 = s.mcr.debug ∧ v.extractLsb' 24 8 = s.mcr.dsn ∧ t.flags = s.flags ∧ Kept s t

/-- R144 with R26 and R29 (D1, D6, D16). -/
def Obligations.MovToBankRegisterResult : Prop :=
  ∀ (s : State) (rd rm : RegNum),
    RunsTo (.movToBank rd rm .supervisor) s (some (regOf .supervisor rd)) (s.x rm) s.flags ∧
    RunsTo (.movToBank rd rm .interrupt) s (some (regOf .irq rd)) (s.x rm) s.flags

/-- R144 with R34 (D22). -/
def Obligations.MovToFlagsResult : Prop :=
  ∀ (s : State) (rm : RegNum),
    RunsTo (.movToBank 0#4 rm .bank3) s none 0#32
      ⟨(s.x rm).getLsbD 11, (s.x rm).getLsbD 10, (s.x rm).getLsbD 9, (s.x rm).getLsbD 8⟩

/-- R144 with R37, R43, R210 and R225 (D21, D22, D28). -/
def Obligations.MovToMcrResult : Prop :=
  ∀ (s : State) (rm : RegNum),
    ((s.x rm).getLsbD 14 = true → exec (.movToBank 1#4 rm .bank3) s = .refused .debugMode) ∧
    ((s.x rm).getLsbD 14 = false → ∃ t, exec (.movToBank 1#4 rm .bank3) s = .next t ∧
      t.mcr.i = (s.x rm).getLsbD 0 ∧ t.mcr.s = (s.x rm).getLsbD 1 ∧ t.mcr.v = (s.x rm).extractLsb' 3 5 ∧
      t.mcr.f = (s.x rm).extractLsb' 8 4 ∧ t.mcr.debug = (s.x rm).extractLsb' 14 10 ∧
      t.mcr.dsn = (s.x rm).extractLsb' 24 8 ∧ (t.mode = .supervisor ↔ (s.x rm).getLsbD 1 = true) ∧
      RegsAre s t none 0#32 ∧ t.flags = s.flags ∧ (∀ a, Memory.read t.mem a = Memory.read s.mem a) ∧
      t.stored = s.stored ∧ t.config = s.config ∧ t.draws = s.draws)

/-- R44 and R106 (D7). -/
def Obligations.ReservedBanksRefused : Prop :=
  ∀ (s : State) (rd rm : RegNum),
    exec (.movFromBank rd rm .reserved) s = .refused .reservedBank ∧
    exec (.movToBank rd rm .reserved) s = .refused .reservedBank ∧
    (2 ≤ rm.toNat → exec (.movFromBank rd rm .bank3) s = .refused .reservedBank3) ∧
    (2 ≤ rd.toNat → exec (.movToBank rd rm .bank3) s = .refused .reservedBank3)

/-- R43 and R225 (D21, D22). -/
def Obligations.McrReadsBackAsWritten : Prop :=
  ∀ (s : State) (rd rm : RegNum), (s.x rm).getLsbD 14 = false →
    ∃ t u, exec (.movToBank 1#4 rm .bank3) s = .next t ∧ exec (.movFromBank rd 1#4 .bank3) t = .next u ∧
      ∀ k, k < 32 → k ≠ 2 → k ≠ 12 → k ≠ 13 → (u.get (regOf t.mode rd)).getLsbD k = (s.x rm).getLsbD k

/-- R155, R156 with R150 and R151 (D8, D9). -/
def Obligations.AddResult : Prop :=
  ∀ (s : State) (rd rm : RegNum),
    (∀ imm : BitVec 16, ArithRuns (.add rd rm imm) s (some (regOf s.mode rd)) (AddLaw (s.x rm) (imm.signExtend 32) false)) ∧
    ∀ op : ShiftedReg, op.rn ≠ 15#4 → ArithRuns (.addR rd rm op) s (some (regOf s.mode rd))
      (AddLaw (s.x rm) (shiftWord (s.x op.rn) op.dir op.amt) false)

/-- R157, R158 with R150 and R151 (D8, D9). -/
def Obligations.AddcResult : Prop :=
  ∀ (s : State) (rd rm : RegNum),
    (∀ imm : BitVec 16, ArithRuns (.addc rd rm imm) s (some (regOf s.mode rd)) (AddLaw (s.x rm) (imm.signExtend 32) s.flags.c)) ∧
    ∀ op : ShiftedReg, op.rn ≠ 15#4 → ArithRuns (.addcR rd rm op) s (some (regOf s.mode rd))
      (AddLaw (s.x rm) (shiftWord (s.x op.rn) op.dir op.amt) s.flags.c)

/-- R159, R160 with R150 and R152 (D8, D9). -/
def Obligations.SubResult : Prop :=
  ∀ (s : State) (rd rm : RegNum),
    (∀ imm : BitVec 16, ArithRuns (.sub rd rm imm) s (some (regOf s.mode rd)) (SubLaw (s.x rm) (imm.signExtend 32) false)) ∧
    ∀ op : ShiftedReg, op.rn ≠ 15#4 → ArithRuns (.subR rd rm op) s (some (regOf s.mode rd))
      (SubLaw (s.x rm) (shiftWord (s.x op.rn) op.dir op.amt) false)

/-- R161, R162 with R150 and R152 (D8, D9). -/
def Obligations.SubcResult : Prop :=
  ∀ (s : State) (rd rm : RegNum),
    (∀ imm : BitVec 16, ArithRuns (.subc rd rm imm) s (some (regOf s.mode rd)) (SubLaw (s.x rm) (imm.signExtend 32) s.flags.c)) ∧
    ∀ op : ShiftedReg, op.rn ≠ 15#4 → ArithRuns (.subcR rd rm op) s (some (regOf s.mode rd))
      (SubLaw (s.x rm) (shiftWord (s.x op.rn) op.dir op.amt) s.flags.c)

/-- R163, R164 with R150 and R153 (D8, D10). -/
def Obligations.AndResult : Prop :=
  ∀ (s : State) (rd rm : RegNum),
    (∀ imm : BitVec 16, LogicRuns (.and rd rm imm) s (some (regOf s.mode rd)) (s.x rm &&& (imm.signExtend 32))) ∧
    ∀ op : ShiftedReg, op.rn ≠ 15#4 →
      LogicRuns (.andR rd rm op) s (some (regOf s.mode rd)) (s.x rm &&& (shiftWord (s.x op.rn) op.dir op.amt))

/-- R165, R166 (90_conflicts.md C8) with R150 and R153 (D8, D10). -/
def Obligations.BicResult : Prop :=
  ∀ (s : State) (rd rm : RegNum),
    (∀ imm : BitVec 16, LogicRuns (.bic rd rm imm) s (some (regOf s.mode rd)) (s.x rm &&& ~~~(imm.signExtend 32))) ∧
    ∀ op : ShiftedReg, op.rn ≠ 15#4 →
      LogicRuns (.bicR rd rm op) s (some (regOf s.mode rd)) (s.x rm &&& ~~~(shiftWord (s.x op.rn) op.dir op.amt))

/-- R167, R168 with R150 and R153 (D8, D10). -/
def Obligations.OrResult : Prop :=
  ∀ (s : State) (rd rm : RegNum),
    (∀ imm : BitVec 16, LogicRuns (.or rd rm imm) s (some (regOf s.mode rd)) (s.x rm ||| (imm.signExtend 32))) ∧
    ∀ op : ShiftedReg, op.rn ≠ 15#4 →
      LogicRuns (.orR rd rm op) s (some (regOf s.mode rd)) (s.x rm ||| (shiftWord (s.x op.rn) op.dir op.amt))

/-- R169, R170 with R150 and R153 (D8, D10). -/
def Obligations.XorResult : Prop :=
  ∀ (s : State) (rd rm : RegNum),
    (∀ imm : BitVec 16, LogicRuns (.xor rd rm imm) s (some (regOf s.mode rd)) (s.x rm ^^^ (imm.signExtend 32))) ∧
    ∀ op : ShiftedReg, op.rn ≠ 15#4 →
      LogicRuns (.xorR rd rm op) s (some (regOf s.mode rd)) (s.x rm ^^^ (shiftWord (s.x op.rn) op.dir op.amt))

/-- R171, R172 with R150 and R152 (D6, D8, D9). -/
def Obligations.CmpResult : Prop :=
  ∀ (s : State) (rm : RegNum),
    (∀ imm : BitVec 16, ArithRuns (.cmp rm imm) s none (SubLaw (s.x rm) (imm.signExtend 32) false)) ∧
    ∀ op : ShiftedReg, op.rn ≠ 15#4 → ArithRuns (.cmpR rm op) s none
      (SubLaw (s.x rm) (shiftWord (s.x op.rn) op.dir op.amt) false)

/-- R173, R174 with R150 and R153 (D6, D8, D10). -/
def Obligations.TstResult : Prop :=
  ∀ (s : State) (rm : RegNum),
    (∀ imm : BitVec 16, LogicRuns (.tst rm imm) s none (s.x rm &&& (imm.signExtend 32))) ∧
    ∀ op : ShiftedReg, op.rn ≠ 15#4 →
      LogicRuns (.tstR rm op) s none (s.x rm &&& (shiftWord (s.x op.rn) op.dir op.amt))

/-- The reading of a compare that R152 gives (D9). -/
def Obligations.CompareReadsOutcome : Prop :=
  ∀ (s : State) (rm : RegNum),
    (∀ imm : BitVec 16, ∃ t, exec (.cmp rm imm) s = .next t ∧
      (t.flags.z = true ↔ s.x rm = imm.signExtend 32) ∧
      (t.flags.c = true ↔ (s.x rm).toNat < (imm.signExtend 32).toNat) ∧
      (t.flags.n ≠ t.flags.v ↔ (s.x rm).toInt < (imm.signExtend 32 : Word).toInt)) ∧
    ∀ op : ShiftedReg, op.rn ≠ 15#4 → ∃ t, exec (.cmpR rm op) s = .next t ∧
      (t.flags.z = true ↔ s.x rm = shiftWord (s.x op.rn) op.dir op.amt) ∧
      (t.flags.c = true ↔ (s.x rm).toNat < (shiftWord (s.x op.rn) op.dir op.amt).toNat) ∧
      (t.flags.n ≠ t.flags.v ↔ (s.x rm).toInt < (shiftWord (s.x op.rn) op.dir op.amt).toInt)

/-- The reason D9 gives for the borrow sense of C (R151, R152). -/
def Obligations.CarryChainsTwoWords : Prop :=
  ∀ (s : State) (lo hi al ah bl bh : RegNum), lo ≠ 15#4 → hi ≠ 15#4 → bl ≠ 15#4 → bh ≠ 15#4 → ah ≠ 15#4 →
    lo ≠ hi → lo ≠ ah → lo ≠ bh →
    (∃ t u, exec (.addR lo al ⟨bl, .left, 0#4⟩) s = .next t ∧ exec (.addcR hi ah ⟨bh, .left, 0#4⟩) t = .next u ∧
      (u.x hi).toNat * 2 ^ 32 + (u.x lo).toNat =
        ((s.x ah).toNat * 2 ^ 32 + (s.x al).toNat + ((s.x bh).toNat * 2 ^ 32 + (s.x bl).toNat)) % 2 ^ 64) ∧
    ∃ t u, exec (.subR lo al ⟨bl, .left, 0#4⟩) s = .next t ∧ exec (.subcR hi ah ⟨bh, .left, 0#4⟩) t = .next u ∧
      (((u.x hi).toNat * 2 ^ 32 + (u.x lo).toNat : Nat) : Int) =
        ((((s.x ah).toNat * 2 ^ 32 + (s.x al).toNat : Nat) : Int) -
          (((s.x bh).toNat * 2 ^ 32 + (s.x bl).toNat : Nat) : Int)) % 2 ^ 64

/-- R103 and R104 (D11; the bit-level meaning is from general knowledge, G4). -/
def Obligations.ShifterMovesBits : Prop :=
  ∀ (v : Word) (amt : BitVec 4) (k : Nat), k < 32 →
    (shiftWord v .left amt).getLsbD k = (decide (amt.toNat ≤ k) && v.getLsbD (k - amt.toNat)) ∧
    (shiftWord v .right amt).getLsbD k = (decide (k + amt.toNat < 32) && v.getLsbD (k + amt.toNat)) ∧
    (shiftWord v .signedRight amt).getLsbD k = v.getLsbD (min (k + amt.toNat) 31) ∧
    (shiftWord v .rotateRight amt).getLsbD k = v.getLsbD ((k + amt.toNat) % 32) ∧
    ∀ d, shiftWord v d 0#4 = v

/-- R109 and R180 to R182 (D4; the immediate operand is the model's, log entry 15). -/
def Obligations.UndecodableInstructionsStop : Prop :=
  (∀ (c : Config) (w : Word) (imm : BitVec 16), decodeWord c w ≠ .instr (.bc imm) ∧
      decodeWord c w ≠ .instr (.bcl imm) ∧ decodeWord c w ≠ .instr (.int imm)) ∧
    ∀ (s : State) (c : Config) (imm : BitVec 16),
      (Instr.bc imm).wellFormed c = false ∧ (Instr.bcl imm).wellFormed c = false ∧
      (Instr.int imm).wellFormed c = false ∧ exec (.bc imm) s = .refused (.noEncoding "B<c>") ∧
      exec (.bcl imm) s = .refused (.noEncoding "B<c>L") ∧ exec (.int imm) s = .refused (.noEncoding "INT")

/-- R28 in the runs of R132, R133, R143 and R155: that STR.B and STR.W store the low bytes of the register is D13 in
R132 and R133 (log entry 24), in the order of D12. -/
def Obligations.PcReadsOwnAddress : Prop :=
  ∀ (s : State) (rd : RegNum), s.x 15#4 = s.pc ∧
    (∃ t, exec (.movFromBank rd 15#4 .supervisor) s = .next t ∧ t.get (regOf s.mode rd) = s.pc) ∧
    (∃ t, exec (.movFromBank rd 15#4 .interrupt) s = .next t ∧ t.get (regOf s.mode rd) = s.pc) ∧
    (∃ t, exec (.add rd 15#4 0#16) s = .next t ∧ t.get (regOf s.mode rd) = s.pc) ∧
    ∀ rm : RegNum, Memory.wf s.mem = true →
      (∀ imm : BitVec 14,
        (AccessOk s (s.addrImm rm imm) 1 → ∃ t, exec (.strB 15#4 rm imm) s = .next t ∧
          valueAt t (s.addrImm rm imm) 1 = s.pc.toNat % 2 ^ 8) ∧
        (AccessOk s (s.addrImm rm imm) 2 → ∃ t, exec (.strW 15#4 rm imm) s = .next t ∧
          valueAt t (s.addrImm rm imm) 2 = s.pc.toNat % 2 ^ 16) ∧
        (AccessOk s (s.addrImm rm imm) 4 → ∃ t, exec (.strD 15#4 rm imm) s = .next t ∧
          valueAt t (s.addrImm rm imm) 4 = s.pc.toNat)) ∧
      ∀ op : ShiftedReg, op.rn ≠ 15#4 →
        (AccessOk s (s.addrReg rm op) 1 → ∃ t, exec (.strBR 15#4 rm op) s = .next t ∧
          valueAt t (s.addrReg rm op) 1 = s.pc.toNat % 2 ^ 8) ∧
        (AccessOk s (s.addrReg rm op) 2 → ∃ t, exec (.strWR 15#4 rm op) s = .next t ∧
          valueAt t (s.addrReg rm op) 2 = s.pc.toNat % 2 ^ 16) ∧
        (AccessOk s (s.addrReg rm op) 4 → ∃ t, exec (.strDR 15#4 rm op) s = .next t ∧
          valueAt t (s.addrReg rm op) 4 = s.pc.toNat)

/-- R23 with R22 and R25. The sentence of the source names r0 to r7, MCR and the pc; that FLAGS is one copy too is the
spec's own inference in R23 (90_conflicts.md C13), and that the mode is a bit of MCR is D21 (R24). MCR as one copy is
McrReadsBackAsWritten. -/
def Obligations.SharedAndBankedRegisters : Prop :=
  (∀ n : RegNum, regOf .supervisor n = regOf .irq n ↔ n.toNat < 8 ∨ n = 15#4) ∧
    ∀ (s : State) (m : Mcr), (s.setMcr m).flags = s.flags ∧
      ∀ n : RegNum, n.toNat < 8 ∨ n = 15#4 → (s.setMcr m).x n = s.x n

/-- R46 and R220 (D24, D28) give the mode, the pc and MCR.DBG. That nothing is stored to is R79 ("since launch") with
R229; the list of stored addresses is the model's form of it (log entry 14, DEDUCED). That the configuration stands in
the state is the model's (log entry 1, DESIGN CHOICE). -/
def Obligations.ResetState : Prop :=
  ∀ c : Config, (State.resetWith c).mode = .supervisor ∧ (State.resetWith c).get .pc = c.resetPc ∧
    (State.resetWith c).mcr.dbg = false ∧ (State.resetWith c).stored = [] ∧ (State.resetWith c).config = c

/-- The base case of StepKeepsInvariant; the form of memory is the model's. -/
def Obligations.ResetMeetsInvariant : Prop :=
  ∀ c : Config, (State.resetWith c).Inv

/-- The model's form of R65 and R79; every address is one of the 2^32 of R61. That an exception entry leaves memory
and the addresses stored to alone is R200 for an interrupt and log entries 11 and 12 (DEDUCED) for the rest; the form
of the entry is log entry 10 (DESIGN CHOICE). -/
def Obligations.StepKeepsInvariant : Prop :=
  ∀ s t : State, s.Inv → step s = .next t → t.Inv

/-- R229 and R45: the configuration is chosen at launch. That it stands in the state is the model's (log entry 1), and
that an entry function has no say in it is the model's (log entry 10, DESIGN CHOICE). -/
def Obligations.StepKeepsConfiguration : Prop :=
  ∀ s t : State, step s = .next t → t.config = s.config

/-- R210 and R43 (D28): a write that would set bit 14 is refused; that a supplied entry leaves the debug fields alone
is log entry 12 (DEDUCED); its form is log entry 10 (DESIGN CHOICE). -/
def Obligations.DebugModeStaysOff : Prop :=
  ∀ s t : State, s.mcr.dbg = false → step s = .next t → t.mcr.dbg = false

/-- R79 and R226 (D27): "since launch". That an exception entry marks nothing is log entry 12 (DEDUCED); that a step
may run in a state with the counter one further is log entry 8 (DESIGN CHOICE). -/
def Obligations.StoredAddressesOnlyGrow : Prop :=
  ∀ s t : State, step s = .next t → (∀ a, a ∈ s.stored → a ∈ t.stored) ∧
    ∀ a, a ∈ t.stored → a ∉ s.stored → ∃ (i : Instr) (b : Word) (n k : Nat) (u : State),
      i.isStore = true ∧ (u = s ∨ u = s.skipDraws 1) ∧ exec i u = .next t ∧ accessOf u i = some (b, n) ∧ k < n ∧
      a = (b + BitVec.ofNat 32 k).toNat

/-- R72 ("No other instruction touches memory"). That the entry for a #UD or #AC leaves memory unchanged is the
model's reading of R196 (log entry 11, DEDUCED), and that it leaves the addresses stored to is log entry 12 (DEDUCED).
-/
def Obligations.OnlyStoresChangeMemory : Prop :=
  ∀ (i : Instr) (s t : State), i.isStore = false → exec i s = .next t →
    (∀ a, Memory.read t.mem a = Memory.read s.mem a) ∧ t.stored = s.stored

/-- R25: every instruction but the two banked MOV forms reads and writes registers only in the current mode's bank
(D21). A supplied entry is no part of it: R200 leaves the whole IRQ bank to the entry function, which sees the whole
state (R196). -/
def Obligations.OtherBankUntouched : Prop :=
  ∀ (i : Instr) (s : State), s.config.trapEntry = .fault →
    (∀ t, (∀ rd rm b, i ≠ .movToBank rd rm b) → exec i s = .next t →
      (s.mode = .supervisor → ∀ k, t.get (.irq k) = s.get (.irq k)) ∧
      (s.mode = .irq → ∀ k, t.get (.sup k) = s.get (.sup k))) ∧
    ((∀ rd rm b, i ≠ .movFromBank rd rm b) → s.mode = .supervisor → ∀ bank : Vector Word 7,
      match exec i s, exec i (s.setBankI bank) with
      | .next t, .next u => (∀ g, (∀ k, g ≠ .irq k) → t.get g = u.get g) ∧ t.flags = u.flags ∧ t.mcr = u.mcr ∧
          t.mem = u.mem ∧ t.stored = u.stored
      | .fault f, .fault g => f = g
      | .refused p, .refused q => p = q
      | _, _ => False) ∧
    ((∀ rd rm b, i ≠ .movFromBank rd rm b) → s.mode = .irq → ∀ bank : Vector Word 7,
      match exec i s, exec i { s with bankS := bank } with
      | .next t, .next u => (∀ g, (∀ k, g ≠ .sup k) → t.get g = u.get g) ∧ t.flags = u.flags ∧ t.mcr = u.mcr ∧
          t.mem = u.mem ∧ t.stored = u.stored
      | .fault f, .fault g => f = g
      | .refused p, .refused q => p = q
      | _, _ => False)

/-- R33: "ALU flags are not modified" of LDR, STR, MOV and MOVT; that the ALU class writes them is D8. -/
def Obligations.FlagsChangeOnlyByAlu : Prop :=
  ∀ (i : Instr) (s t : State), s.config.trapEntry = .fault → i.isAlu = false →
    (∀ rm, i ≠ .movToBank 0#4 rm .bank3) → exec i s = .next t → t.flags = s.flags

/-- R205 and R43 (D21). -/
def Obligations.McrChangesOnlyByMove : Prop :=
  ∀ (i : Instr) (s t : State), s.config.trapEntry = .fault → (∀ rm, i ≠ .movToBank 1#4 rm .bank3) →
    exec i s = .next t → t.mcr = s.mcr ∧ t.mode = s.mode

/-- R30 (D16) and R183. -/
def Obligations.SequentialUnlessPcWritten : Prop :=
  ∀ (i : Instr) (s t : State), s.config.trapEntry = .fault → writesPc i = false → exec i s = .next t →
    t.pc.toNat = (s.pc.toNat + 4) % 2 ^ 32

/-- R185: there is no conditional instruction. A supplied entry is no part of it: it saves the flags in MCR.F, and the
entry function sees the whole state (R196, R200). -/
def Obligations.FlagsSelectNothing : Prop :=
  ∀ (i : Instr) (s : State) (f : Flags), s.config.trapEntry = .fault → readsFlags i = false →
    AgreeButFlags (exec i s) (exec i (s.setFlags f))

/-- R66, R67 and R77, byte by byte (D12, D25). -/
def Obligations.MemoryReadsLastWrite : Prop :=
  ∀ (s : State) (a v : Word) (z : Size), Memory.wf s.mem = true →
    (∀ k, k < bytesOf z → (Memory.read (s.memWrite a (bytesOf z) v).mem (a + BitVec.ofNat 32 k).toNat).toNat =
      v.toNat / 256 ^ byteRank s.config.byteOrder (bytesOf z) k % 256) ∧
    (∀ x, (∀ k, k < bytesOf z → x ≠ (a + BitVec.ofNat 32 k).toNat) →
      Memory.read (s.memWrite a (bytesOf z) v).mem x = Memory.read s.mem x) ∧
    (∀ (u : State) (b : Word) (y : Size), (u.memRead b (bytesOf y)).toNat = valueAt u b (bytesOf y)) ∧
    ((s.memWrite a (bytesOf z) v).memRead a (bytesOf z)).toNat = v.toNat % 256 ^ bytesOf z ∧
    (s.memWrite a (bytesOf z) v).config.byteOrder = s.config.byteOrder ∧
    ∀ (b : Word) (y : Size),
      (∀ j k, j < bytesOf y → k < bytesOf z → b + BitVec.ofNat 32 j ≠ a + BitVec.ofNat 32 k) →
      (s.memWrite a (bytesOf z) v).memRead b (bytesOf y) = s.memRead b (bytesOf y)

/-- The table of R111 under RESERVED_FIELD_POLICY = refuse (D6), first of the checks after the opcode in R115 and R195
(D29), under both placements of R96 (D1). What such a word does under ignore is UnreadFieldsIgnored. -/
def Obligations.UnreadFieldsRefused : Prop :=
  ∀ (c : Config) (w : Word) (op6 : Nat) (mask : Word), (op6, mask) ∈ unreadTable →
    w.toNat / 2 ^ 24 = placed c.opcodePlacement op6 → c.reservedFieldPolicy = .refuse →
    (w &&& mask ≠ 0#32 → decodeWord c w = .refuse .nonZeroUnusedField ∧
      ∀ s : State, Fetches s → s.config = c → s.memRead s.pc 4 = w → step s = .refused .nonZeroUnusedField) ∧
    (w &&& mask = 0#32 → decodeWord c w = decodeWord { c with reservedFieldPolicy := .ignore } w)
end

