-- ==== Sys2Proof/Laws/Encoding.lean ====
section
/-! SUPPORT. The fields of the three formats read back what a word was made of, and a word written with zeros in the
fields a row does not read has none of their bits set: what a round trip rests on. -/

namespace Sys2Proof

/-! The I format. -/

@[simp] theorem opcodeField_iWord (op8 : BitVec 8) (rd rm : RegNum) (imm : BitVec 16) :
    opcodeField (iWord op8 rd rm imm) = op8 := by
  unfold opcodeField iWord
  ext i hi
  simp only [BitVec.getElem_extractLsb', BitVec.getLsbD_append]
  grind

@[simp] theorem rdField_iWord (op8 : BitVec 8) (rd rm : RegNum) (imm : BitVec 16) :
    rdField (iWord op8 rd rm imm) = rd := by
  unfold rdField iWord
  ext i hi
  simp only [BitVec.getElem_extractLsb', BitVec.getLsbD_append]
  grind

@[simp] theorem rmField_iWord (op8 : BitVec 8) (rd rm : RegNum) (imm : BitVec 16) :
    rmField (iWord op8 rd rm imm) = rm := by
  unfold rmField iWord
  ext i hi
  simp only [BitVec.getElem_extractLsb', BitVec.getLsbD_append]
  grind

@[simp] theorem imm16Field_iWord (op8 : BitVec 8) (rd rm : RegNum) (imm : BitVec 16) :
    imm16Field (iWord op8 rd rm imm) = imm := by
  unfold imm16Field iWord
  ext i hi
  simp only [BitVec.getElem_extractLsb', BitVec.getLsbD_append]
  grind

/-! The R format. -/

@[simp] theorem opcodeField_rWord (op8 : BitVec 8) (rd rm rn : RegNum) (func sh : BitVec 4) (dir bank : BitVec 2) :
    opcodeField (rWord op8 rd rm rn func sh dir bank) = op8 := by
  unfold opcodeField rWord
  ext i hi
  simp only [BitVec.getElem_extractLsb', BitVec.getLsbD_append]
  grind

@[simp] theorem rdField_rWord (op8 : BitVec 8) (rd rm rn : RegNum) (func sh : BitVec 4) (dir bank : BitVec 2) :
    rdField (rWord op8 rd rm rn func sh dir bank) = rd := by
  unfold rdField rWord
  ext i hi
  simp only [BitVec.getElem_extractLsb', BitVec.getLsbD_append]
  grind

@[simp] theorem rmField_rWord (op8 : BitVec 8) (rd rm rn : RegNum) (func sh : BitVec 4) (dir bank : BitVec 2) :
    rmField (rWord op8 rd rm rn func sh dir bank) = rm := by
  unfold rmField rWord
  ext i hi
  simp only [BitVec.getElem_extractLsb', BitVec.getLsbD_append]
  grind

@[simp] theorem rnField_rWord (op8 : BitVec 8) (rd rm rn : RegNum) (func sh : BitVec 4) (dir bank : BitVec 2) :
    rnField (rWord op8 rd rm rn func sh dir bank) = rn := by
  unfold rnField rWord
  ext i hi
  simp only [BitVec.getElem_extractLsb', BitVec.getLsbD_append]
  grind

@[simp] theorem sizeFieldR_rWord (op8 : BitVec 8) (rd rm rn : RegNum) (func sh : BitVec 4) (dir bank : BitVec 2) :
    sizeFieldR (rWord op8 rd rm rn func sh dir bank) = func.extractLsb' 0 2 := by
  unfold sizeFieldR rWord
  ext i hi
  simp only [BitVec.getElem_extractLsb', BitVec.getLsbD_append]
  grind

@[simp] theorem shField_rWord (op8 : BitVec 8) (rd rm rn : RegNum) (func sh : BitVec 4) (dir bank : BitVec 2) :
    shField (rWord op8 rd rm rn func sh dir bank) = sh := by
  unfold shField rWord
  ext i hi
  simp only [BitVec.getElem_extractLsb', BitVec.getLsbD_append]
  grind

@[simp] theorem dirField_rWord (op8 : BitVec 8) (rd rm rn : RegNum) (func sh : BitVec 4) (dir bank : BitVec 2) :
    dirField (rWord op8 rd rm rn func sh dir bank) = dir := by
  unfold dirField rWord
  ext i hi
  simp only [BitVec.getElem_extractLsb', BitVec.getLsbD_append]
  grind

@[simp] theorem bankField_rWord (op8 : BitVec 8) (rd rm rn : RegNum) (func sh : BitVec 4) (dir bank : BitVec 2) :
    bankField (rWord op8 rd rm rn func sh dir bank) = bank := by
  unfold bankField rWord
  ext i hi
  simp only [BitVec.getElem_extractLsb', BitVec.getLsbD_append]
  grind

/-! The M format. -/

@[simp] theorem opcodeField_mWord (op8 : BitVec 8) (rd rm : RegNum) (func : BitVec 2) (imm : BitVec 14) :
    opcodeField (mWord op8 rd rm func imm) = op8 := by
  unfold opcodeField mWord
  ext i hi
  simp only [BitVec.getElem_extractLsb', BitVec.getLsbD_append]
  grind

@[simp] theorem rdField_mWord (op8 : BitVec 8) (rd rm : RegNum) (func : BitVec 2) (imm : BitVec 14) :
    rdField (mWord op8 rd rm func imm) = rd := by
  unfold rdField mWord
  ext i hi
  simp only [BitVec.getElem_extractLsb', BitVec.getLsbD_append]
  grind

@[simp] theorem rmField_mWord (op8 : BitVec 8) (rd rm : RegNum) (func : BitVec 2) (imm : BitVec 14) :
    rmField (mWord op8 rd rm func imm) = rm := by
  unfold rmField mWord
  ext i hi
  simp only [BitVec.getElem_extractLsb', BitVec.getLsbD_append]
  grind

@[simp] theorem sizeFieldM_mWord (op8 : BitVec 8) (rd rm : RegNum) (func : BitVec 2) (imm : BitVec 14) :
    sizeFieldM (mWord op8 rd rm func imm) = func := by
  unfold sizeFieldM mWord
  ext i hi
  simp only [BitVec.getElem_extractLsb', BitVec.getLsbD_append]
  grind

@[simp] theorem imm14Field_mWord (op8 : BitVec 8) (rd rm : RegNum) (func : BitVec 2) (imm : BitVec 14) :
    imm14Field (mWord op8 rd rm func imm) = imm := by
  unfold imm14Field mWord
  ext i hi
  simp only [BitVec.getElem_extractLsb', BitVec.getLsbD_append]
  grind

/-! A word is made of its fields. -/

/-- The four fields of the I format make the word (R92). -/
theorem iWord_fields (w : Word) : iWord (opcodeField w) (rdField w) (rmField w) (imm16Field w) = w := by
  unfold iWord opcodeField rdField rmField imm16Field
  ext i hi
  simp only [BitVec.getElem_append, BitVec.getElem_extractLsb']
  interval_cases i <;> simp

/-- The eight fields of the R format make the word; `func` is read whole here (R93). -/
theorem rWord_fields (w : Word) :
    rWord (opcodeField w) (rdField w) (rmField w) (rnField w) (w.extractLsb' 8 4) (shField w) (dirField w)
      (bankField w) = w := by
  unfold rWord opcodeField rdField rmField rnField shField dirField bankField
  ext i hi
  simp only [BitVec.getElem_append, BitVec.getElem_extractLsb']
  interval_cases i <;> simp

/-- The five fields of the M format make the word (R94). -/
theorem mWord_fields (w : Word) :
    mWord (opcodeField w) (rdField w) (rmField w) (sizeFieldM w) (imm14Field w) = w := by
  unfold mWord opcodeField rdField rmField sizeFieldM imm14Field
  ext i hi
  simp only [BitVec.getElem_append, BitVec.getElem_extractLsb']
  interval_cases i <;> simp

/-! No bit of a field that is not read. -/

theorem iWord_no_rm (op8 : BitVec 8) (rd : RegNum) (imm : BitVec 16) :
    iWord op8 rd 0#4 imm &&& 0x000F0000#32 = 0#32 := by
  unfold iWord
  ext i hi
  simp only [BitVec.getElem_and, BitVec.getElem_append]
  interval_cases i <;> simp

theorem iWord_no_rd (op8 : BitVec 8) (rm : RegNum) (imm : BitVec 16) :
    iWord op8 0#4 rm imm &&& 0x00F00000#32 = 0#32 := by
  unfold iWord
  ext i hi
  simp only [BitVec.getElem_and, BitVec.getElem_append]
  interval_cases i <;> simp

theorem rWord_no_func_bank (op8 : BitVec 8) (rd rm rn : RegNum) (sh : BitVec 4) (dir : BitVec 2) :
    rWord op8 rd rm rn 0#4 sh dir 0#2 &&& 0x00000F03#32 = 0#32 := by
  unfold rWord
  ext i hi
  simp only [BitVec.getElem_and, BitVec.getElem_append]
  interval_cases i <;> simp

theorem rWord_no_rm_func_bank (op8 : BitVec 8) (rd rn : RegNum) (sh : BitVec 4) (dir : BitVec 2) :
    rWord op8 rd 0#4 rn 0#4 sh dir 0#2 &&& 0x000F0F03#32 = 0#32 := by
  unfold rWord
  ext i hi
  simp only [BitVec.getElem_and, BitVec.getElem_append]
  interval_cases i <;> simp

theorem rWord_no_rd_func_bank (op8 : BitVec 8) (rm rn : RegNum) (sh : BitVec 4) (dir : BitVec 2) :
    rWord op8 0#4 rm rn 0#4 sh dir 0#2 &&& 0x00F00F03#32 = 0#32 := by
  unfold rWord
  ext i hi
  simp only [BitVec.getElem_and, BitVec.getElem_append]
  interval_cases i <;> simp

theorem rWord_no_funcHigh_bank (op8 : BitVec 8) (rd rm rn : RegNum) (k : BitVec 2) (sh : BitVec 4) (dir : BitVec 2) :
    rWord op8 rd rm rn (0#2 ++ k) sh dir 0#2 &&& 0x00000C03#32 = 0#32 := by
  unfold rWord
  ext i hi
  simp only [BitVec.getElem_and, BitVec.getElem_append]
  interval_cases i <;> simp

theorem rWord_no_rn_func_sh_dir (op8 : BitVec 8) (rd rm : RegNum) (bank : BitVec 2) :
    rWord op8 rd rm 0#4 0#4 0#4 0#2 bank &&& 0x0000FFFC#32 = 0#32 := by
  unfold rWord
  ext i hi
  simp only [BitVec.getElem_and, BitVec.getElem_append]
  interval_cases i <;> simp

/-! Codes. -/

/-- A row's opcode is the row's, in either placement (R96, R108). -/
@[simp] theorem opOfCode8_code8 (p : OpcodePlacement) (op : Op) : opOfCode8 p (op.code8 p) = some op := by
  cases p <;> cases op <;> rfl

set_option maxRecDepth 8000 in
/-- An opcode value with a row is that row's opcode (R108, R110). -/
theorem code8_of_opOfCode8 (p : OpcodePlacement) (b : BitVec 8) (op : Op) (h : opOfCode8 p b = some op) :
    op.code8 p = b := by
  have key : ∀ (p : OpcodePlacement) (n : Fin 256),
      ((opOfCode8 p (BitVec.ofFin n)).all fun o => decide (o.code8 p = BitVec.ofFin n)) = true := by
    intro p
    cases p <;> decide
  have hb := key p b.toFin
  rw [show BitVec.ofFin b.toFin = b from rfl, h] at hb
  simpa using hb

/-- A direction's code names it (R103). -/
@[simp] theorem dirOfCode_code (d : ShiftDir) : dirOfCode d.code = d := by cases d <;> rfl

/-- A bank's code names it (R106). -/
@[simp] theorem bankOfCode_code (b : BankSel) : bankOfCode b.code = b := by cases b <;> rfl

/-- The direction of a code has that code (R103). -/
@[simp] theorem code_dirOfCode (b : BitVec 2) : (dirOfCode b).code = b := by revert b; decide

/-- The bank of a code has that code (R106). -/
@[simp] theorem code_bankOfCode (b : BitVec 2) : (bankOfCode b).code = b := by revert b; decide

/-- The low two bits of `func` made of a size code are the code (R102). -/
@[simp] theorem extract_sizeCode (k : BitVec 2) : ((0#2 ++ k : BitVec 4).extractLsb' 0 2) = k := by revert k; decide

/-- A size's code, where SIZE_CODE has one, names the size (R102). -/
theorem sizeOf_of_codeOf {m : SizeCode} {z : Size} {k : BitVec 2} (h : m.codeOf z = some k) : m.sizeOf k = some z := by
  unfold SizeCode.codeOf at h
  split at h
  · cases h; assumption
  · split at h
    · cases h; assumption
    · split at h
      · cases h; assumption
      · split at h
        · cases h; assumption
        · cases h

end Sys2Proof
end

