-- ==== Sys2Proof/Laws/State.lean ====
section
/-! SUPPORT. One lemma per field of the state per update of it, and the same for the updates built from them. -/

namespace Sys2Proof.Machine

variable (s : State)

@[simp] theorem State.setPc_r (a : Word) : (s.setPc a).r = s.r := rfl
@[simp] theorem State.setPc_bankS (a : Word) : (s.setPc a).bankS = s.bankS := rfl
@[simp] theorem State.setPc_bankI (a : Word) : (s.setPc a).bankI = s.bankI := rfl
@[simp] theorem State.setPc_pc (a : Word) : (s.setPc a).pc = a := rfl
@[simp] theorem State.setPc_flags (a : Word) : (s.setPc a).flags = s.flags := rfl
@[simp] theorem State.setPc_mcr (a : Word) : (s.setPc a).mcr = s.mcr := rfl
@[simp] theorem State.setPc_mem (a : Word) : (s.setPc a).mem = s.mem := rfl
@[simp] theorem State.setPc_stored (a : Word) : (s.setPc a).stored = s.stored := rfl
@[simp] theorem State.setPc_config (a : Word) : (s.setPc a).config = s.config := rfl
@[simp] theorem State.setPc_draws (a : Word) : (s.setPc a).draws = s.draws := rfl

@[simp] theorem State.setFlags_r (f : Flags) : (s.setFlags f).r = s.r := rfl
@[simp] theorem State.setFlags_bankS (f : Flags) : (s.setFlags f).bankS = s.bankS := rfl
@[simp] theorem State.setFlags_bankI (f : Flags) : (s.setFlags f).bankI = s.bankI := rfl
@[simp] theorem State.setFlags_pc (f : Flags) : (s.setFlags f).pc = s.pc := rfl
@[simp] theorem State.setFlags_flags (f : Flags) : (s.setFlags f).flags = f := rfl
@[simp] theorem State.setFlags_mcr (f : Flags) : (s.setFlags f).mcr = s.mcr := rfl
@[simp] theorem State.setFlags_mem (f : Flags) : (s.setFlags f).mem = s.mem := rfl
@[simp] theorem State.setFlags_stored (f : Flags) : (s.setFlags f).stored = s.stored := rfl
@[simp] theorem State.setFlags_config (f : Flags) : (s.setFlags f).config = s.config := rfl
@[simp] theorem State.setFlags_draws (f : Flags) : (s.setFlags f).draws = s.draws := rfl

@[simp] theorem State.setMcr_r (m : Mcr) : (s.setMcr m).r = s.r := rfl
@[simp] theorem State.setMcr_bankS (m : Mcr) : (s.setMcr m).bankS = s.bankS := rfl
@[simp] theorem State.setMcr_bankI (m : Mcr) : (s.setMcr m).bankI = s.bankI := rfl
@[simp] theorem State.setMcr_pc (m : Mcr) : (s.setMcr m).pc = s.pc := rfl
@[simp] theorem State.setMcr_flags (m : Mcr) : (s.setMcr m).flags = s.flags := rfl
@[simp] theorem State.setMcr_mcr (m : Mcr) : (s.setMcr m).mcr = m := rfl
@[simp] theorem State.setMcr_mem (m : Mcr) : (s.setMcr m).mem = s.mem := rfl
@[simp] theorem State.setMcr_stored (m : Mcr) : (s.setMcr m).stored = s.stored := rfl
@[simp] theorem State.setMcr_config (m : Mcr) : (s.setMcr m).config = s.config := rfl
@[simp] theorem State.setMcr_draws (m : Mcr) : (s.setMcr m).draws = s.draws := rfl

@[simp] theorem State.setMem_r (m : Memory) (l : List Nat) : (s.setMem m l).r = s.r := rfl
@[simp] theorem State.setMem_bankS (m : Memory) (l : List Nat) : (s.setMem m l).bankS = s.bankS := rfl
@[simp] theorem State.setMem_bankI (m : Memory) (l : List Nat) : (s.setMem m l).bankI = s.bankI := rfl
@[simp] theorem State.setMem_pc (m : Memory) (l : List Nat) : (s.setMem m l).pc = s.pc := rfl
@[simp] theorem State.setMem_flags (m : Memory) (l : List Nat) : (s.setMem m l).flags = s.flags := rfl
@[simp] theorem State.setMem_mcr (m : Memory) (l : List Nat) : (s.setMem m l).mcr = s.mcr := rfl
@[simp] theorem State.setMem_mem (m : Memory) (l : List Nat) : (s.setMem m l).mem = m := rfl
@[simp] theorem State.setMem_stored (m : Memory) (l : List Nat) : (s.setMem m l).stored = l := rfl
@[simp] theorem State.setMem_config (m : Memory) (l : List Nat) : (s.setMem m l).config = s.config := rfl
@[simp] theorem State.setMem_draws (m : Memory) (l : List Nat) : (s.setMem m l).draws = s.draws := rfl

@[simp] theorem State.setBankI_r (b : Vector Word 7) : (s.setBankI b).r = s.r := rfl
@[simp] theorem State.setBankI_bankS (b : Vector Word 7) : (s.setBankI b).bankS = s.bankS := rfl
@[simp] theorem State.setBankI_bankI (b : Vector Word 7) : (s.setBankI b).bankI = b := rfl
@[simp] theorem State.setBankI_pc (b : Vector Word 7) : (s.setBankI b).pc = s.pc := rfl
@[simp] theorem State.setBankI_flags (b : Vector Word 7) : (s.setBankI b).flags = s.flags := rfl
@[simp] theorem State.setBankI_mcr (b : Vector Word 7) : (s.setBankI b).mcr = s.mcr := rfl
@[simp] theorem State.setBankI_mem (b : Vector Word 7) : (s.setBankI b).mem = s.mem := rfl
@[simp] theorem State.setBankI_stored (b : Vector Word 7) : (s.setBankI b).stored = s.stored := rfl
@[simp] theorem State.setBankI_config (b : Vector Word 7) : (s.setBankI b).config = s.config := rfl
@[simp] theorem State.setBankI_draws (b : Vector Word 7) : (s.setBankI b).draws = s.draws := rfl

@[simp] theorem State.skipDraws_r (n : Nat) : (s.skipDraws n).r = s.r := rfl
@[simp] theorem State.skipDraws_bankS (n : Nat) : (s.skipDraws n).bankS = s.bankS := rfl
@[simp] theorem State.skipDraws_bankI (n : Nat) : (s.skipDraws n).bankI = s.bankI := rfl
@[simp] theorem State.skipDraws_pc (n : Nat) : (s.skipDraws n).pc = s.pc := rfl
@[simp] theorem State.skipDraws_flags (n : Nat) : (s.skipDraws n).flags = s.flags := rfl
@[simp] theorem State.skipDraws_mcr (n : Nat) : (s.skipDraws n).mcr = s.mcr := rfl
@[simp] theorem State.skipDraws_mem (n : Nat) : (s.skipDraws n).mem = s.mem := rfl
@[simp] theorem State.skipDraws_stored (n : Nat) : (s.skipDraws n).stored = s.stored := rfl
@[simp] theorem State.skipDraws_config (n : Nat) : (s.skipDraws n).config = s.config := rfl
@[simp] theorem State.skipDraws_draws (n : Nat) : (s.skipDraws n).draws = s.draws + n := rfl

@[simp] theorem State.advance_r : (s.advance).r = s.r := rfl
@[simp] theorem State.advance_bankS : (s.advance).bankS = s.bankS := rfl
@[simp] theorem State.advance_bankI : (s.advance).bankI = s.bankI := rfl
@[simp] theorem State.advance_pc : (s.advance).pc = s.pc + 4#32 := rfl
@[simp] theorem State.advance_flags : (s.advance).flags = s.flags := rfl
@[simp] theorem State.advance_mcr : (s.advance).mcr = s.mcr := rfl
@[simp] theorem State.advance_mem : (s.advance).mem = s.mem := rfl
@[simp] theorem State.advance_stored : (s.advance).stored = s.stored := rfl
@[simp] theorem State.advance_config : (s.advance).config = s.config := rfl
@[simp] theorem State.advance_draws : (s.advance).draws = s.draws := rfl

@[simp] theorem State.put_flags (g : Reg) (v : Word) : (s.put g v).flags = s.flags := by cases g <;> rfl
@[simp] theorem State.put_mcr (g : Reg) (v : Word) : (s.put g v).mcr = s.mcr := by cases g <;> rfl
@[simp] theorem State.put_mem (g : Reg) (v : Word) : (s.put g v).mem = s.mem := by cases g <;> rfl
@[simp] theorem State.put_stored (g : Reg) (v : Word) : (s.put g v).stored = s.stored := by cases g <;> rfl
@[simp] theorem State.put_config (g : Reg) (v : Word) : (s.put g v).config = s.config := by cases g <;> rfl
@[simp] theorem State.put_draws (g : Reg) (v : Word) : (s.put g v).draws = s.draws := by cases g <;> rfl

@[simp] theorem State.writeBack_flags (rd : RegNum) (v : Word) : (s.writeBack rd v).flags = s.flags := by
  simp [State.writeBack]
@[simp] theorem State.writeBack_mcr (rd : RegNum) (v : Word) : (s.writeBack rd v).mcr = s.mcr := by
  simp [State.writeBack]
@[simp] theorem State.writeBack_mem (rd : RegNum) (v : Word) : (s.writeBack rd v).mem = s.mem := by
  simp [State.writeBack]
@[simp] theorem State.writeBack_stored (rd : RegNum) (v : Word) : (s.writeBack rd v).stored = s.stored := by
  simp [State.writeBack]
@[simp] theorem State.writeBack_config (rd : RegNum) (v : Word) : (s.writeBack rd v).config = s.config := by
  simp [State.writeBack]
@[simp] theorem State.writeBack_draws (rd : RegNum) (v : Word) : (s.writeBack rd v).draws = s.draws := by
  simp [State.writeBack]

@[simp] theorem State.memWrite_r (a : Word) (n : Nat) (v : Word) : (s.memWrite a n v).r = s.r := rfl
@[simp] theorem State.memWrite_bankS (a : Word) (n : Nat) (v : Word) : (s.memWrite a n v).bankS = s.bankS := rfl
@[simp] theorem State.memWrite_bankI (a : Word) (n : Nat) (v : Word) : (s.memWrite a n v).bankI = s.bankI := rfl
@[simp] theorem State.memWrite_pc (a : Word) (n : Nat) (v : Word) : (s.memWrite a n v).pc = s.pc := rfl
@[simp] theorem State.memWrite_flags (a : Word) (n : Nat) (v : Word) : (s.memWrite a n v).flags = s.flags := rfl
@[simp] theorem State.memWrite_mcr (a : Word) (n : Nat) (v : Word) : (s.memWrite a n v).mcr = s.mcr := rfl
@[simp] theorem State.memWrite_config (a : Word) (n : Nat) (v : Word) : (s.memWrite a n v).config = s.config := rfl
@[simp] theorem State.memWrite_draws (a : Word) (n : Nat) (v : Word) : (s.memWrite a n v).draws = s.draws := rfl

@[simp] theorem State.enterTrap_r (f : Nat) (c : TrapCause) : (s.enterTrap f c).r = s.r := rfl
@[simp] theorem State.enterTrap_bankS (f : Nat) (c : TrapCause) : (s.enterTrap f c).bankS = s.bankS := rfl
@[simp] theorem State.enterTrap_config (f : Nat) (c : TrapCause) : (s.enterTrap f c).config = s.config := rfl
@[simp] theorem State.enterTrap_mem (f : Nat) (c : TrapCause) : (s.enterTrap f c).mem = s.mem := rfl
@[simp] theorem State.enterTrap_stored (f : Nat) (c : TrapCause) : (s.enterTrap f c).stored = s.stored := rfl
@[simp] theorem State.enterTrap_draws (f : Nat) (c : TrapCause) : (s.enterTrap f c).draws = s.draws := rfl
@[simp] theorem State.enterTrap_pc (f : Nat) (c : TrapCause) :
    (s.enterTrap f c).pc = (Config.suppliedEntry f s c).pc := rfl
@[simp] theorem State.enterTrap_bankI (f : Nat) (c : TrapCause) :
    (s.enterTrap f c).bankI = (Config.suppliedEntry f s c).bankI := rfl
@[simp] theorem State.enterTrap_flags (f : Nat) (c : TrapCause) :
    (s.enterTrap f c).flags = (Config.suppliedEntry f s c).flags := rfl
@[simp] theorem State.mode_enterTrap (f : Nat) (c : TrapCause) : (s.enterTrap f c).mode = .irq := rfl

/-! The registers after an update. -/

@[simp] theorem State.get_setFlags (f : Flags) (g : Reg) : (s.setFlags f).get g = s.get g := by cases g <;> rfl
@[simp] theorem State.get_setMcr (m : Mcr) (g : Reg) : (s.setMcr m).get g = s.get g := by cases g <;> rfl
@[simp] theorem State.get_setMem (m : Memory) (l : List Nat) (g : Reg) : (s.setMem m l).get g = s.get g := by
  cases g <;> rfl
@[simp] theorem State.get_skipDraws (n : Nat) (g : Reg) : (s.skipDraws n).get g = s.get g := by cases g <;> rfl
@[simp] theorem State.get_memWrite (a : Word) (n : Nat) (v : Word) (g : Reg) : (s.memWrite a n v).get g = s.get g := by
  cases g <;> rfl

/-- Setting the pc changes no other register. -/
theorem State.get_setPc (a : Word) (g : Reg) : (s.setPc a).get g = if g = .pc then a else s.get g := by
  cases g <;> simp [State.get, State.setPc]

/-- Advancing changes only the pc. -/
theorem State.get_advance (g : Reg) : s.advance.get g = if g = .pc then s.pc + 4#32 else s.get g :=
  s.get_setPc _ g

/-- A register reads what was written to it, and a write leaves every other register alone. -/
theorem State.get_put (g h : Reg) (v : Word) : (s.put g v).get h = if h = g then v else s.get h := by
  cases g <;> cases h <;>
    simp [State.get, State.put, Vector.get_eq_getElem, Vector.getElem_set, Fin.ext_iff, eq_comm]

/-- The registers at the end of an instruction that writes Rd (R29, R30). -/
theorem State.get_writeBack (rd : RegNum) (v : Word) (g : Reg) :
    (s.writeBack rd v).get g =
      if g = regOf s.mode rd then v else if g = .pc then s.pc + 4#32 else s.get g := by
  rw [State.writeBack, State.get_put, State.get_advance]

/-! The mode and `x[n]` after an update. -/

@[simp] theorem State.mode_setPc (a : Word) : (s.setPc a).mode = s.mode := rfl
@[simp] theorem State.mode_setFlags (f : Flags) : (s.setFlags f).mode = s.mode := rfl
@[simp] theorem State.mode_setMem (m : Memory) (l : List Nat) : (s.setMem m l).mode = s.mode := rfl
@[simp] theorem State.mode_skipDraws (n : Nat) : (s.skipDraws n).mode = s.mode := rfl
@[simp] theorem State.mode_advance : s.advance.mode = s.mode := rfl
@[simp] theorem State.mode_memWrite (a : Word) (n : Nat) (v : Word) : (s.memWrite a n v).mode = s.mode := rfl
@[simp] theorem State.mode_put (g : Reg) (v : Word) : (s.put g v).mode = s.mode := by simp [State.mode]
@[simp] theorem State.mode_writeBack (rd : RegNum) (v : Word) : (s.writeBack rd v).mode = s.mode := by
  simp [State.mode]

@[simp] theorem State.x_setFlags (f : Flags) (n : RegNum) : (s.setFlags f).x n = s.x n := by simp [State.x]
@[simp] theorem State.x_skipDraws (k : Nat) (n : RegNum) : (s.skipDraws k).x n = s.x n := by simp [State.x]

/-! The flags after a logical result. -/

/-- N and Z come from the result, whatever LOGIC_CV is (R150). -/
theorem State.logicFlags_nz (res : Word) :
    (s.logicFlags res).flags.n = res.msb ∧ (s.logicFlags res).flags.z = decide (res = 0#32) := by
  unfold State.logicFlags
  cases s.config.logicCV <;> exact ⟨rfl, rfl⟩

@[simp] theorem State.logicFlags_r (res : Word) : (s.logicFlags res).r = s.r := by
  unfold State.logicFlags
  cases s.config.logicCV <;> rfl
@[simp] theorem State.logicFlags_bankS (res : Word) : (s.logicFlags res).bankS = s.bankS := by
  unfold State.logicFlags
  cases s.config.logicCV <;> rfl
@[simp] theorem State.logicFlags_bankI (res : Word) : (s.logicFlags res).bankI = s.bankI := by
  unfold State.logicFlags
  cases s.config.logicCV <;> rfl
@[simp] theorem State.logicFlags_pc (res : Word) : (s.logicFlags res).pc = s.pc := by
  unfold State.logicFlags
  cases s.config.logicCV <;> rfl
@[simp] theorem State.logicFlags_mcr (res : Word) : (s.logicFlags res).mcr = s.mcr := by
  unfold State.logicFlags
  cases s.config.logicCV <;> rfl
@[simp] theorem State.logicFlags_mem (res : Word) : (s.logicFlags res).mem = s.mem := by
  unfold State.logicFlags
  cases s.config.logicCV <;> rfl
@[simp] theorem State.logicFlags_stored (res : Word) : (s.logicFlags res).stored = s.stored := by
  unfold State.logicFlags
  cases s.config.logicCV <;> rfl
@[simp] theorem State.logicFlags_config (res : Word) : (s.logicFlags res).config = s.config := by
  unfold State.logicFlags
  cases s.config.logicCV <;> rfl
@[simp] theorem State.mode_logicFlags (res : Word) : (s.logicFlags res).mode = s.mode := by simp [State.mode]
@[simp] theorem State.get_logicFlags (res : Word) (g : Reg) : (s.logicFlags res).get g = s.get g := by
  cases g <;> simp [State.get]

end Sys2Proof.Machine
end

