-- ==== Sys2Proof/Laws/Memory.lean ====
section
/-! SUPPORT. The laws of memory: a byte reads as written, every other byte is left alone, the canonical form is kept;
the same for the bytes of an access and for the set of addresses stored to. -/

namespace Sys2Proof.Machine

/-- The address `k` bytes after the next one. -/
theorem add_one_add_ofNat (a : Word) (k : Nat) : a + 1#32 + BitVec.ofNat 32 k = a + BitVec.ofNat 32 (k + 1) := by
  rw [BitVec.add_assoc, ← BitVec.ofNat_add, Nat.add_comm k 1]

/-! One byte. -/

/-- In a rising list, an address below the first entry is not listed. -/
theorem Memory.read_of_lt {lo : Nat} {m : Memory} (h : Memory.wfFrom lo m = true) {x : Nat} (hx : x < lo) :
    Memory.read m x = blankByte := by
  induction m generalizing lo with
  | nil => rfl
  | cons e m ih =>
    obtain ⟨a, b⟩ := e
    simp only [Memory.wfFrom, Bool.and_eq_true, decide_eq_true_eq] at h
    rw [Memory.read, if_neg (by omega)]
    exact ih h.2 (by omega)

/-- A byte reads as written, and every other byte as before (R67). -/
theorem Memory.read_write {lo : Nat} {m : Memory} (h : Memory.wfFrom lo m = true) (x y : Nat) (v : Byte) :
    Memory.read (Memory.write m x v) y = if y = x then v else Memory.read m y := by
  induction m generalizing lo with
  | nil =>
    by_cases hv : v = blankByte <;> by_cases hy : y = x <;> simp [Memory.write, Memory.read, hv, hy]
  | cons e m ih =>
    obtain ⟨a, b⟩ := e
    simp only [Memory.wfFrom, Bool.and_eq_true, decide_eq_true_eq] at h
    have below : ∀ z, z < a + 1 → Memory.read m z = blankByte := fun z hz => Memory.read_of_lt h.2 hz
    unfold Memory.write
    split
    · rename_i hxa
      have hx := below x (by omega)
      split
      · rename_i hv
        by_cases hy : y = x
        · subst hy
          simp [Memory.read, hx, hv, show y ≠ a by omega]
        · simp [hy]
      · simp only [Memory.read]
    · split
      · rename_i hxa
        subst hxa
        have hx := below x (by omega)
        split
        · rename_i hv
          by_cases hy : y = x
          · subst hy
            simp [hx, hv]
          · simp [Memory.read, hy]
        · by_cases hy : y = x <;> simp [Memory.read, hy]
      · simp only [Memory.read, ih h.2]
        by_cases hya : y = a
        · subst hya
          simp; omega
        · simp [hya]

/-- Writing a byte keeps the canonical form, from any bound that is not above the address. -/
theorem Memory.wfFrom_write {lo : Nat} {m : Memory} (h : Memory.wfFrom lo m = true) {x : Nat} (hlo : lo ≤ x)
    (hx : x < 2 ^ 32) (v : Byte) : Memory.wfFrom lo (Memory.write m x v) = true := by
  induction m generalizing lo with
  | nil =>
    by_cases hv : v = blankByte
    · simp [Memory.write, Memory.wfFrom, hv]
    · simp only [Memory.write, hv, if_false, Memory.wfFrom, Bool.and_eq_true, decide_eq_true_eq]
      exact ⟨⟨⟨hlo, hx⟩, hv⟩, trivial⟩
  | cons e m ih =>
    obtain ⟨a, b⟩ := e
    have h0 := h
    simp only [Memory.wfFrom, Bool.and_eq_true, decide_eq_true_eq] at h
    have widen : ∀ {l k : Nat} {n : Memory}, l ≤ k → Memory.wfFrom k n = true → Memory.wfFrom l n = true := by
      intro l k n hlk hn
      cases n with
      | nil => rfl
      | cons e n =>
        obtain ⟨c, d⟩ := e
        simp only [Memory.wfFrom, Bool.and_eq_true, decide_eq_true_eq] at hn ⊢
        exact ⟨⟨⟨by omega, hn.1.1.2⟩, hn.1.2⟩, hn.2⟩
    unfold Memory.write
    split
    · split
      · exact h0
      · rename_i hxa hv
        simp only [Memory.wfFrom, Bool.and_eq_true, decide_eq_true_eq]
        exact ⟨⟨⟨hlo, hx⟩, hv⟩, ⟨⟨by omega, h.1.1.2⟩, h.1.2⟩, h.2⟩
    · split
      · split
        · exact widen (by omega) h.2
        · rename_i hxa hv
          simp only [Memory.wfFrom, Bool.and_eq_true, decide_eq_true_eq]
          exact ⟨⟨⟨hlo, hx⟩, hv⟩, hxa ▸ h.2⟩
      · simp only [Memory.wfFrom, Bool.and_eq_true, decide_eq_true_eq]
        exact ⟨h.1, ih h.2 (by omega)⟩

/-- Writing a byte keeps the canonical form. -/
theorem Memory.wf_write {m : Memory} (h : Memory.wf m = true) (a : Word) (v : Byte) :
    Memory.wf (Memory.write m a.toNat v) = true :=
  Memory.wfFrom_write h (Nat.zero_le _) a.isLt v

/-! The bytes of an access. -/

/-- Writing bytes keeps the canonical form. -/
theorem wf_writeBytes {m : Memory} (h : Memory.wf m = true) (a : Word) (bs : List Byte) :
    Memory.wf (writeBytes m a bs) = true := by
  induction bs generalizing m a with
  | nil => exact h
  | cons b bs ih => exact ih (Memory.wf_write h a b) _

/-- A byte outside the written ones reads as before (R67). -/
theorem read_writeBytes_outside {m : Memory} (h : Memory.wf m = true) (a : Word) (bs : List Byte) (x : Nat)
    (hx : ∀ k, k < bs.length → x ≠ (a + BitVec.ofNat 32 k).toNat) :
    Memory.read (writeBytes m a bs) x = Memory.read m x := by
  induction bs generalizing m a with
  | nil => rfl
  | cons b bs ih =>
    have h0 : x ≠ a.toNat := by simpa using hx 0 (by simp)
    rw [writeBytes, ih (Memory.wf_write h a b), Memory.read_write h, if_neg h0]
    intro k hk
    have := hx (k + 1) (by simp only [List.length_cons]; omega)
    rwa [← add_one_add_ofNat a k] at this

/-- Byte `k` of the written ones reads as written, for fewer than 2^32 bytes (R67). -/
theorem read_writeBytes_inside {m : Memory} (h : Memory.wf m = true) (a : Word) (bs : List Byte)
    (hlen : bs.length < 2 ^ 32) (k : Nat) (hk : k < bs.length) :
    Memory.read (writeBytes m a bs) (a + BitVec.ofNat 32 k).toNat = bs[k] := by
  induction bs generalizing m a k with
  | nil => exact absurd hk (by simp)
  | cons b bs ih =>
    rw [writeBytes]
    simp only [List.length_cons] at hlen hk
    cases k with
    | zero =>
      rw [read_writeBytes_outside (Memory.wf_write h a b), Memory.read_write h]
      · simp
      · intro j hj e
        have : (j + 1) % 2 ^ 32 = 0 := by
          have e' := congrArg (fun t => (t + (2 ^ 32 - a.toNat)) % 2 ^ 32) e
          have := a.isLt
          simp only [BitVec.toNat_add, BitVec.toNat_ofNat] at e'
          omega
        omega
    | succ k =>
      rw [← add_one_add_ofNat a k, List.getElem_cons_succ]
      exact ih (Memory.wf_write h a b) (a + 1#32) (by omega) k (by omega)

/-- Up to four bytes, the least significant first, are the base-256 digits of the value (R66). -/
theorem toNat_assembleLittle (bs : List Byte) (h : bs.length ≤ 4) :
    (assembleLittle bs).toNat = bs.foldr (fun b v => b.toNat + 256 * v) 0 ∧
      (assembleLittle bs).toNat < 256 ^ bs.length := by
  induction bs with
  | nil => simp [assembleLittle]
  | cons b bs ih =>
    simp only [List.length_cons] at h
    obtain ⟨ih, hlt⟩ := ih (by omega)
    have hb := b.isLt
    have hp : 256 ^ bs.length ≤ 256 ^ 3 := Nat.pow_le_pow_right (by omega) (by omega)
    have key : (assembleLittle (b :: bs)).toNat = b.toNat + 256 * (assembleLittle bs).toNat := by
      simp only [assembleLittle, BitVec.toNat_or, BitVec.toNat_shiftLeft, BitVec.truncate_eq_setWidth,
        BitVec.toNat_setWidth]
      rw [Nat.shiftLeft_eq, Nat.mod_eq_of_lt (by omega), Nat.mod_eq_of_lt (by omega), Nat.or_comm, Nat.mul_comm,
        ← Nat.two_pow_add_eq_or_of_lt (by omega)]
      omega
    rw [key, List.foldr_cons, ← ih, List.length_cons, Nat.pow_succ]
    exact ⟨rfl, by omega⟩

/-- Byte `k` of a value (R67). -/
theorem toNat_byteOf (v : Word) (k : Nat) : (byteOf v k).toNat = v.toNat / 256 ^ k % 256 := by
  rw [byteOf, BitVec.extractLsb'_toNat, Nat.shiftRight_eq_div_pow, Nat.pow_mul]

/-- The bytes an access stores are as many as its size. -/
@[simp] theorem length_disassemble (o : ByteOrder) (n : Nat) (v : Word) : (disassemble o n v).length = n := by
  cases o <;> simp [disassemble]

/-- The bytes an access reads are as many as its size. -/
@[simp] theorem length_readBytes (m : Memory) (a : Word) (n : Nat) : (readBytes m a n).length = n := by
  induction n generalizing a with
  | zero => rfl
  | succ n ih => simp [readBytes, ih]

/-- Byte `k` of an access is the byte at the address plus `k` (R66). -/
theorem getElem_readBytes (m : Memory) (a : Word) (n k : Nat) (h : k < (readBytes m a n).length) :
    (readBytes m a n)[k] = Memory.read m (a + BitVec.ofNat 32 k).toNat := by
  induction n generalizing a k with
  | zero => exact absurd h (by simp [readBytes])
  | succ n ih =>
    cases k with
    | zero => simp [readBytes]
    | succ k =>
      simp only [readBytes, List.getElem_cons_succ, ih, add_one_add_ofNat]

/-! Addresses stored to. -/

/-- Membership after an insertion. -/
@[simp] theorem mem_addrInsert (l : List Nat) (x y : Nat) : y ∈ addrInsert l x ↔ y = x ∨ y ∈ l := by
  induction l with
  | nil => simp [addrInsert]
  | cons a l ih =>
    unfold addrInsert
    split
    · simp
    · split
      · rename_i h
        subst h
        simp
      · simp only [List.mem_cons, ih]
        tauto

/-- An insertion keeps the list rising. -/
theorem addrsFrom_insert {lo : Nat} {l : List Nat} (h : addrsFrom lo l = true) {x : Nat} (hlo : lo ≤ x)
    (hx : x < 2 ^ 32) : addrsFrom lo (addrInsert l x) = true := by
  induction l generalizing lo with
  | nil => simp only [addrInsert, addrsFrom, Bool.and_eq_true, decide_eq_true_eq]; exact ⟨⟨hlo, hx⟩, trivial⟩
  | cons a l ih =>
    have h0 := h
    simp only [addrsFrom, Bool.and_eq_true, decide_eq_true_eq] at h
    unfold addrInsert
    split
    · simp only [addrsFrom, Bool.and_eq_true, decide_eq_true_eq]
      exact ⟨⟨hlo, hx⟩, ⟨by omega, h.1.2⟩, h.2⟩
    · split
      · exact h0
      · simp only [addrsFrom, Bool.and_eq_true, decide_eq_true_eq]
        exact ⟨h.1, ih h.2 (by omega)⟩

/-- Marking bytes as stored to keeps the list rising. -/
theorem addrsFrom_markStored {l : List Nat} (h : addrsFrom 0 l = true) (a : Word) (n : Nat) :
    addrsFrom 0 (markStored l a n) = true := by
  induction n generalizing a with
  | zero => exact h
  | succ n ih => exact addrsFrom_insert (ih _) (Nat.zero_le _) a.isLt

/-- The addresses stored to after a store: the old ones and those of its bytes (R79). -/
theorem mem_markStored (l : List Nat) (a : Word) (n x : Nat) :
    x ∈ markStored l a n ↔ x ∈ l ∨ ∃ k, k < n ∧ x = (a + BitVec.ofNat 32 k).toNat := by
  induction n generalizing a with
  | zero => simp [markStored]
  | succ n ih =>
    simp only [markStored, mem_addrInsert, ih, add_one_add_ofNat]
    constructor
    · rintro (rfl | h | ⟨k, hk, rfl⟩)
      · exact .inr ⟨0, by omega, by simp⟩
      · exact .inl h
      · exact .inr ⟨k + 1, by omega, rfl⟩
    · rintro (h | ⟨k, hk, rfl⟩)
      · exact .inr (.inl h)
      · cases k with
        | zero => exact .inl (by simp)
        | succ k => exact .inr (.inr ⟨k, by omega, rfl⟩)

/-- Some of the bytes was stored to (R79). -/
theorem anyStored_eq_true (l : List Nat) (a : Word) (n : Nat) :
    anyStored l a n = true ↔ ∃ k, k < n ∧ (a + BitVec.ofNat 32 k).toNat ∈ l := by
  induction n generalizing a with
  | zero => simp [anyStored]
  | succ n ih =>
    simp only [anyStored, Bool.or_eq_true, decide_eq_true_eq, ih, add_one_add_ofNat]
    constructor
    · rintro (h | ⟨k, hk, h⟩)
      · exact ⟨0, by omega, by simpa using h⟩
      · exact ⟨k + 1, by omega, h⟩
    · rintro ⟨k, hk, h⟩
      cases k with
      | zero => exact .inl (by simpa using h)
      | succ k => exact .inr ⟨k, by omega, h⟩

/-- All the bytes lie in MEM_DOMAIN (R63). -/
theorem rangeInDomain_eq_true (c : Config) (a : Word) (n : Nat) :
    rangeInDomain c a n = true ↔ ∀ k, k < n → inDomain c (a + BitVec.ofNat 32 k).toNat = true := by
  induction n generalizing a with
  | zero => simp [rangeInDomain]
  | succ n ih =>
    simp only [rangeInDomain, Bool.and_eq_true, ih, add_one_add_ofNat]
    constructor
    · rintro ⟨h0, h⟩ k hk
      cases k with
      | zero => simpa using h0
      | succ k => exact h k (by omega)
    · exact fun h => ⟨by simpa using h 0 (by omega), fun k hk => h (k + 1) (by omega)⟩

end Sys2Proof.Machine
end

