-- ==== Sys2Proof/Laws/Ops.lean ====
section
/-! SUPPORT. For each shared operation, once, everything it can do: register numbers, the banked registers, the access
checks, `sh(Rn)`, exception entry, the flag laws of a logical result, an instruction boundary. -/

namespace Sys2Proof.Machine

/-! Register numbers (R22). -/

/-- Register numbers 0 to 7 name the shared registers in either mode. -/
theorem regOf_shared (m : Mode) (n : RegNum) (h : n.toNat < 8) : regOf m n = .shared ⟨n.toNat, h⟩ := by
  simp [regOf, h]

/-- Register numbers 8 to 14 name the mode's bank. -/
theorem regOf_banked (m : Mode) (n : RegNum) (h8 : 8 ≤ n.toNat) (h15 : n.toNat < 15) :
    regOf m n = bankReg m ⟨n.toNat - 8, by omega⟩ := by
  simp [regOf, h15, show ¬ n.toNat < 8 by omega]

/-- Register number 15 names the pc in either mode. -/
@[simp] theorem regOf_fifteen (m : Mode) : regOf m 15#4 = .pc := by simp [regOf]

/-- Only register number 15 names the pc. -/
theorem regOf_eq_pc (m : Mode) (n : RegNum) : regOf m n = .pc ↔ n = 15#4 := by
  constructor
  · intro h
    by_contra hn
    have h15 : n.toNat < 15 := by
      have : n.toNat ≠ 15 := fun e => hn (BitVec.eq_of_toNat_eq (by simpa using e))
      omega
    by_cases h8 : n.toNat < 8
    · rw [regOf_shared m n h8] at h
      cases h
    · rw [regOf_banked m n (by omega) h15] at h
      cases m <;> cases h
  · rintro rfl
    exact regOf_fifteen m

/-- A mode's register numbers name no register of the IRQ bank in supervisor mode. -/
theorem regOf_supervisor_ne_irq (n : RegNum) (i : Fin 7) : regOf .supervisor n ≠ .irq i := by
  unfold regOf
  split
  · exact fun h => by cases h
  · split <;> exact fun h => by cases h

/-- A mode's register numbers name no register of the supervisor bank in IRQ mode. -/
theorem regOf_irq_ne_sup (n : RegNum) (i : Fin 7) : regOf .irq n ≠ .sup i := by
  unfold regOf
  split
  · exact fun h => by cases h
  · split <;> exact fun h => by cases h

/-- Reading register number 15 gives the address of the current instruction (R28). -/
@[simp] theorem State.x_fifteen (s : State) : s.x 15#4 = s.pc := by simp [State.x, State.get]

/-! FLAGS and MCR as words (R34, R43). -/

/-- Bits 11:8 of a read of FLAGS are N, Z, C, V, whatever is drawn (R34). -/
theorem flagsWord_bits (f : Flags) (hi : BitVec 20) (lo : BitVec 8) :
    (flagsWord f hi lo).extractLsb' 8 4 = f.bits := by
  unfold flagsWord
  ext i hi
  simp only [BitVec.getElem_extractLsb', BitVec.getLsbD_append]
  simp [show ¬ (8 + i < 8) by omega, show 8 + i - 8 = i by omega, hi]

/-- Four bits read back as the flags they were made of (R32). -/
@[simp] theorem flagsOfBits_bits (f : Flags) : flagsOfBits f.bits = f := by
  obtain ⟨n, z, c, v⟩ := f
  revert n z c v
  decide

/-- The flags of four bits make the same four bits (R39). -/
@[simp] theorem bits_flagsOfBits (b : BitVec 4) : (flagsOfBits b).bits = b := by
  revert b
  decide

/-! Checks of an access. -/

/-- #AC is not raised exactly under `NoAc` (R69). -/
theorem acRaised_eq_false (c : Config) (a : Word) (n : Nat) : acRaised c a n = false ↔ NoAc c a n := by
  unfold acRaised NoAc
  cases c.alignCheck <;> cases c.acRule <;> simp

/-- An access completes exactly under `AccessOk`; R62's wrap cannot be reached for a size of 1, 2 or 4 bytes. -/
theorem accessCheck_ok_iff (s : State) (a : Word) (z : Size) :
    accessCheck s a (bytesOf z) = .ok ↔ AccessOk s a (bytesOf z) := by
  have hlt := a.isLt
  unfold accessCheck AccessOk
  rw [← acRaised_eq_false,
    show BytesInDomain s.config a (bytesOf z) ↔ _ from (rangeInDomain_eq_true s.config a (bytesOf z)).symm]
  cases hac : acRaised s.config a (bytesOf z)
  · simp only [Bool.false_eq_true, if_false, true_and]
    by_cases hal : a.toNat % bytesOf z = 0
    · have hw : ¬ 2 ^ 32 < a.toNat + bytesOf z := by
        cases z <;> simp only [bytesOf] at hal ⊢ <;> omega
      simp only [hal, ne_eq, not_true, if_false, hw, true_and]
      cases rangeInDomain s.config a (bytesOf z) <;> simp
    · simp [hal]
  · simp

/-- An access of 1, 2 or 4 bytes never reaches R62's refusal while R70 stands. -/
theorem accessCheck_ne_wraps (s : State) (a : Word) (z : Size) :
    accessCheck s a (bytesOf z) ≠ .refuse .wrapsAddressSpace := by
  have hlt := a.isLt
  unfold accessCheck
  split
  · simp
  · split
    · simp
    · rename_i hal
      have hw : ¬ 2 ^ 32 < a.toNat + bytesOf z := by
        cases z <;> simp only [bytesOf] at hal ⊢ <;> omega
      simp only [hw, if_false]
      split <;> simp

/-- An access that completes. -/
theorem withAccess_ok {s : State} {a : Word} {z : Size} (h : AccessOk s a (bytesOf z)) (t : State) :
    withAccess s a (bytesOf z) t = .next t := by
  rw [withAccess, (accessCheck_ok_iff s a z).2 h]

/-- An access that raises #AC (R69). -/
theorem withAccess_ac {s : State} {a : Word} {n : Nat} (h : acRaised s.config a n = true) (t : State) :
    withAccess s a n t = takeException s (.ac a) := by
  simp [withAccess, accessCheck, h]

/-- Everything an access can lead to: its effect, #AC, or a refusal of R62, R63 or R70. -/
theorem withAccess_cases (s : State) (a : Word) (n : Nat) (t : State) :
    (accessCheck s a n = .ok ∧ withAccess s a n t = .next t) ∨
      (acRaised s.config a n = true ∧ withAccess s a n t = takeException s (.ac a)) ∨
      ∃ r, withAccess s a n t = .refused r := by
  unfold withAccess
  cases h : accessCheck s a n with
  | ok => exact .inl ⟨rfl, rfl⟩
  | raiseAc =>
    refine .inr (.inl ⟨?_, rfl⟩)
    by_contra hac
    simp only [Bool.not_eq_true] at hac
    simp only [accessCheck, hac, Bool.false_eq_true, if_false] at h
    split at h
    · cases h
    · split at h
      · cases h
      · split at h <;> cases h
  | refuse r => exact .inr (.inr ⟨r, rfl⟩)

/-! `sh(Rn)`. -/

/-- Rn = 15 raises #UD before anything else (R105). -/
theorem withShifted_pc {s : State} {op : ShiftedReg} (h : op.rn = 15#4) (k : Word → Result) :
    withShifted s op k = takeException s .ud := by simp [withShifted, h]

/-- Any other Rn gives its shifted value (R104). -/
theorem withShifted_ne {s : State} {op : ShiftedReg} (h : op.rn ≠ 15#4) (k : Word → Result) :
    withShifted s op k = k (s.shifted op) := by simp [withShifted, h]

/-! Exceptions. -/

/-- Under TRAP_ENTRY = fault a raise is the fault state of R196. -/
theorem takeException_fault {s : State} (h : s.config.trapEntry = .fault) (c : TrapCause) :
    takeException s c = .fault (faultOf c s.pc) := by simp [takeException, h]

/-- Under a supplied entry a raise gives a next state. -/
theorem takeException_supplied {s : State} {f : Nat} (h : s.config.trapEntry = .supplied f) (c : TrapCause) :
    takeException s c = .next (s.enterTrap f c) := by simp [takeException, h]

/-- A raise never is a refusal. -/
theorem takeException_ne_refused (s : State) (c : TrapCause) (r : Refusal) : takeException s c ≠ .refused r := by
  unfold takeException
  cases s.config.trapEntry <;> simp

/-- If a raise gives a next state, it is the supplied entry's. -/
theorem eq_enterTrap_of_takeException {s t : State} {c : TrapCause} (h : takeException s c = .next t) :
    ∃ f, s.config.trapEntry = .supplied f ∧ t = s.enterTrap f c := by
  unfold takeException at h
  cases ht : s.config.trapEntry <;> simp only [ht] at h
  · cases h
  · cases h
    exact ⟨_, rfl, rfl⟩

/-- If a raise is a fault, the fault is R196's. -/
theorem eq_faultOf_of_takeException {s : State} {c : TrapCause} {f : Fault} (h : takeException s c = .fault f) :
    f = faultOf c s.pc := by
  unfold takeException at h
  cases ht : s.config.trapEntry <;> simp only [ht] at h
  · cases h
    rfl
  · cases h

/-- The registers after a supplied entry that R200 leaves alone: r0 to r7 and the supervisor bank. -/
theorem State.get_enterTrap_kept (s : State) (f : Nat) (c : TrapCause) (g : Reg) (hpc : g ≠ .pc) (hi : ∀ i, g ≠ .irq i) :
    (s.enterTrap f c).get g = s.get g := by
  cases g with
  | shared i => rfl
  | sup i => rfl
  | irq i => exact absurd rfl (hi i)
  | pc => exact absurd rfl hpc

/-- MCR after a supplied entry (R200). -/
theorem State.enterTrap_mcr (s : State) (f : Nat) (c : TrapCause) :
    (s.enterTrap f c).mcr.s = false ∧ (s.enterTrap f c).mcr.f = s.flags.bits ∧
      (s.enterTrap f c).mcr.debug = s.mcr.debug ∧ (s.enterTrap f c).mcr.dsn = s.mcr.dsn :=
  ⟨rfl, rfl, rfl, rfl⟩

/-! Boundaries. -/

/-- A fetch that passes its checks reads the word at the pc (R68). -/
theorem fetchWord_ok {s : State} (ha : s.pc.toNat % 4 = 0) (hd : BytesInDomain s.config s.pc 4)
    (hs : ∀ k, k < 4 → (s.pc + BitVec.ofNat 32 k).toNat ∉ s.stored) :
    fetchWord s = .ok (s.memRead s.pc 4) := by
  have h0 : s.pc.extractLsb' 0 2 = 0#2 := BitVec.eq_of_toNat_eq (by simp [ha])
  have h1 : rangeInDomain s.config s.pc 4 = true := (rangeInDomain_eq_true _ _ _).2 hd
  have h2 : anyStored s.stored s.pc 4 = false := by
    rw [Bool.eq_false_iff, ne_eq, anyStored_eq_true]
    rintro ⟨k, hk, h⟩
    exact hs k hk h
  simp [fetchWord, h0, h1, h2]

/-- A boundary at which the machine fetches. -/
theorem boundary_of_fetches {s : State} (h : Fetches s) :
    boundary s =
      match decodeWord s.config (s.memRead s.pc 4) with
      | .instr i => .run i s
      | .ud => .stop (takeException s .ud)
      | .refuse r => .stop (.refused (refusalOf r)) := by
  obtain ⟨he, hi, hd, ha, hm, hs⟩ := h
  have hq : irqAsked s = false := by
    rcases hi with hi | hi <;> simp [irqAsked, hi]
  cases hw : decodeWord s.config (s.memRead s.pc 4) <;>
    simp only [boundary, he, if_false, hq, Bool.false_eq_true, issue, hd, fetchWord_ok ha hm hs, hw]

/-- If an issue runs an instruction, it runs it in the same state. -/
theorem eq_of_issue_run {s t : State} {i : Instr} (h : issue s = .run i t) : t = s := by
  unfold issue at h
  split at h
  · cases h
  · split at h
    · cases h
    · split at h
      · cases h
        rfl
      · cases h
      · cases h

/-- If an issue stops with a next state, #UD was raised under a supplied entry. -/
theorem eq_enterTrap_of_issue_stop {s t : State} (h : issue s = .stop (.next t)) :
    s.mcr.dbg = false ∧ ∃ f, s.config.trapEntry = .supplied f ∧ t = s.enterTrap f .ud := by
  unfold issue at h
  split at h
  · cases h
  · rename_i hd
    split at h
    · cases h
    · split at h
      · cases h
      · exact ⟨by simpa using hd, eq_enterTrap_of_takeException (by injection h)⟩
      · cases h

/-- Everything a step that answers a next state can be: the run of an instruction, or an exception's entry. -/
theorem step_next_cases {s t : State} (h : step s = .next t) :
    (∃ i k, (k = 0 ∨ k = 1) ∧ exec i (s.skipDraws k) = .next t) ∨
      (∃ f k, (k = 0 ∨ k = 1) ∧ s.config.trapEntry = .supplied f ∧ t = (s.skipDraws k).enterTrap f .ud) ∨
      ∃ f n, s.config.trapEntry = .supplied f ∧ t = (s.skipDraws 1).enterTrap f (.interrupt n) := by
  have issued : ∀ k, (k = 0 ∨ k = 1) →
      (match issue (s.skipDraws k) with | .run i u => exec i u | .stop o => o) = .next t →
      (∃ i k, (k = 0 ∨ k = 1) ∧ exec i (s.skipDraws k) = .next t) ∨
        (∃ f k, (k = 0 ∨ k = 1) ∧ s.config.trapEntry = .supplied f ∧ t = (s.skipDraws k).enterTrap f .ud) ∨
        ∃ f n, s.config.trapEntry = .supplied f ∧ t = (s.skipDraws 1).enterTrap f (.interrupt n) := by
    intro k hk hs
    cases hb : issue (s.skipDraws k) with
    | run i u =>
      rw [hb] at hs
      have := eq_of_issue_run hb
      subst this
      exact .inl ⟨i, k, hk, hs⟩
    | stop o =>
      rw [hb] at hs
      simp only at hs
      subst hs
      obtain ⟨_, f, hf, ht⟩ := eq_enterTrap_of_issue_stop hb
      exact .inr (.inl ⟨f, k, hk, hf, ht⟩)
  unfold step boundary at h
  split at h
  · rename_i i u hb
    split at hb
    · cases hb
    · split at hb
      · split at hb
        · cases hb
        · exact issued 1 (.inr rfl) (by rw [hb]; exact h)
      · exact issued 0 (.inl rfl) (by rw [show s.skipDraws 0 = s from rfl, hb]; exact h)
  · rename_i o hb
    split at hb
    · cases hb
      cases h
    · split at hb
      · split at hb
        · rename_i n _
          injection hb with hb
          obtain ⟨f, hf, ht⟩ := eq_enterTrap_of_takeException (hb.trans h)
          exact .inr (.inr ⟨f, n, hf, ht⟩)
        · exact issued 1 (.inr rfl) (by rw [hb]; exact h)
      · exact issued 0 (.inl rfl) (by rw [show s.skipDraws 0 = s from rfl, hb]; exact h)

end Sys2Proof.Machine
end

