-- ==== Sys2Proof/Laws/Exec.lean ====
section
/-! SUPPORT. Everything the run of an instruction that answers a next state can have done, said once:
`exec_next_cases`. The rules about the whole machine follow from it by cases. -/

namespace Sys2Proof.Machine

/-- A next state of an instruction that writes Rd in the current mode's bank, or no register, and perhaps the
flags: what is written and how many free values are drawn. -/
def RegisterEffect (i : Instr) (s t : State) : Prop :=
  ∃ f k, (i.isAlu = false → f = s.flags) ∧
    ((∃ rd v, i.dest = some rd ∧ t = ((s.setFlags f).skipDraws k).writeBack rd v) ∨
      (i.dest = none ∧ i.isAlu = true ∧ t = ((s.setFlags f).skipDraws k).advance))

/-- A next state of a store: its bytes written, its addresses marked. -/
def StoreEffect (i : Instr) (s t : State) : Prop :=
  ∃ z rd a, i.isStore = true ∧ accessOf s i = some (a, bytesOf z) ∧ AccessOk s a (bytesOf z) ∧
    t = (s.memWrite a (bytesOf z) (s.x rd)).advance

/-- A next state of the banked destination MOV. -/
def BankEffect (i : Instr) (s t : State) : Prop :=
  ∃ rd rm, (∃ m, (i = .movToBank rd rm .supervisor ∧ m = .supervisor ∨ i = .movToBank rd rm .interrupt ∧ m = .irq) ∧
      t = s.advance.put (regOf m rd) (s.x rm)) ∨
    (i = .movToBank 0#4 rm .bank3 ∧ t = s.advance.setFlags (flagsOfWord (s.x rm))) ∨
    (i = .movToBank 1#4 rm .bank3 ∧ (s.x rm).getLsbD 14 = false ∧ t = s.advance.setMcr (mcrOfWord (s.x rm)))

/-- A next state of a raise under a supplied entry. -/
def TrapEffect (i : Instr) (s t : State) : Prop :=
  ∃ f, s.config.trapEntry = .supplied f ∧
    ((i.rn = some 15#4 ∧ t = s.enterTrap f .ud) ∨ ∃ a n, accessOf s i = some (a, n) ∧ t = s.enterTrap f (.ac a))

/-- Writing the flags back unchanged and drawing nothing is no change. -/
@[simp] theorem State.setFlags_skipDraws_self (s : State) : (s.setFlags s.flags).skipDraws 0 = s := rfl

/-- The state with a logical result's flags, as a write of the flags and some draws. -/
theorem State.logicFlags_eq (s : State) (res : Word) : ∃ f k, s.logicFlags res = (s.setFlags f).skipDraws k := by
  cases hc : s.config.logicCV <;> simp only [State.logicFlags, hc]
  · exact ⟨_, 2, rfl⟩
  · exact ⟨⟨res.msb, decide (res = 0#32), s.flags.c, s.flags.v⟩, 0, rfl⟩
  · exact ⟨⟨res.msb, decide (res = 0#32), false, false⟩, 0, rfl⟩

/-- An access that answers a next state completed, or raised #AC under a supplied entry. -/
theorem withAccess_next {s t u : State} {a : Word} {z : Size} (h : withAccess s a (bytesOf z) u = .next t) :
    (AccessOk s a (bytesOf z) ∧ t = u) ∨ ∃ f, s.config.trapEntry = .supplied f ∧ t = s.enterTrap f (.ac a) := by
  rcases withAccess_cases s a (bytesOf z) u with ⟨hk, he⟩ | ⟨_, he⟩ | ⟨r, he⟩ <;> rw [he] at h
  · cases h
    exact .inl ⟨(accessCheck_ok_iff s a z).1 hk, rfl⟩
  · exact .inr (eq_enterTrap_of_takeException h)
  · cases h

/-- An instruction with `sh(Rn)` that answers a next state went on, or raised #UD under a supplied entry. -/
theorem withShifted_next {s t : State} {op : ShiftedReg} {k : Word → Result} (h : withShifted s op k = .next t) :
    (op.rn ≠ 15#4 ∧ k (s.shifted op) = .next t) ∨
      (op.rn = 15#4 ∧ ∃ f, s.config.trapEntry = .supplied f ∧ t = s.enterTrap f .ud) := by
  by_cases hr : op.rn = 15#4
  · rw [withShifted_pc hr] at h
    exact .inr ⟨hr, eq_enterTrap_of_takeException h⟩
  · rw [withShifted_ne hr] at h
    exact .inl ⟨hr, h⟩

/-- The effect of an instruction that only writes Rd. -/
theorem RegisterEffect.write {i : Instr} {s t : State} {rd : RegNum} {v : Word} (hd : i.dest = some rd)
    (h : (.next (s.writeBack rd v) : Result) = .next t) : RegisterEffect i s t := by
  cases h
  exact ⟨s.flags, 0, fun _ => rfl, .inl ⟨rd, v, hd, rfl⟩⟩

/-- The effect of an arithmetic instruction. -/
theorem RegisterEffect.arith {i : Instr} {s t : State} {rd : RegNum} {v : Word} {f : Flags} (ha : i.isAlu = true)
    (hd : i.dest = some rd) (h : (.next ((s.setFlags f).writeBack rd v) : Result) = .next t) :
    RegisterEffect i s t := by
  cases h
  exact ⟨f, 0, fun e => (by rw [ha] at e; cases e), .inl ⟨rd, v, hd, rfl⟩⟩

/-- The effect of a logical instruction. -/
theorem RegisterEffect.logic {i : Instr} {s t : State} {rd : RegNum} {v : Word} (ha : i.isAlu = true)
    (hd : i.dest = some rd) (h : (.next (logicTo rd v s) : Result) = .next t) : RegisterEffect i s t := by
  cases h
  obtain ⟨f, k, e⟩ := s.logicFlags_eq v
  exact ⟨f, k, fun e => (by rw [ha] at e; cases e), .inl ⟨rd, v, hd, by rw [logicTo, e]⟩⟩

/-- The effect of CMP. -/
theorem RegisterEffect.compare {i : Instr} {s t : State} {f : Flags} (ha : i.isAlu = true) (hd : i.dest = none)
    (h : (.next (s.setFlags f).advance : Result) = .next t) : RegisterEffect i s t := by
  cases h
  exact ⟨f, 0, fun e => (by rw [ha] at e; cases e), .inr ⟨hd, ha, rfl⟩⟩

/-- The effect of TST. -/
theorem RegisterEffect.test {i : Instr} {s t : State} {v : Word} (ha : i.isAlu = true) (hd : i.dest = none)
    (h : (.next (s.logicFlags v).advance : Result) = .next t) : RegisterEffect i s t := by
  cases h
  obtain ⟨f, k, e⟩ := s.logicFlags_eq v
  exact ⟨f, k, fun e => (by rw [ha] at e; cases e), .inr ⟨hd, ha, by rw [e]⟩⟩

/-- Everything a load can lead to as a next state. -/
theorem load_next {i : Instr} {s t : State} {z : Size} {rd : RegNum} {a : Word} (hd : i.dest = some rd)
    (ha : accessOf s i = some (a, bytesOf z)) (h : load z rd a s = .next t) :
    RegisterEffect i s t ∨ TrapEffect i s t := by
  rcases withAccess_next h with ⟨_, rfl⟩ | ⟨f, hs, rfl⟩
  · exact .inl (.write hd rfl)
  · exact .inr ⟨f, hs, .inr ⟨a, _, ha, rfl⟩⟩

/-- Everything a store can lead to as a next state. -/
theorem store_next {i : Instr} {s t : State} {z : Size} {rd : RegNum} {a : Word} (hi : i.isStore = true)
    (ha : accessOf s i = some (a, bytesOf z)) (h : store z rd a s = .next t) :
    StoreEffect i s t ∨ TrapEffect i s t := by
  rcases withAccess_next h with ⟨hk, rfl⟩ | ⟨f, hs, rfl⟩
  · exact .inl ⟨z, rd, a, hi, ha, hk, rfl⟩
  · exact .inr ⟨f, hs, .inr ⟨a, _, ha, rfl⟩⟩

/-- The banked source MOV only writes Rd. -/
theorem movFromBank_next {s t : State} {rd rm : RegNum} {b : BankSel} (h : execMovFromBank rd rm b s = .next t) :
    RegisterEffect (.movFromBank rd rm b) s t := by
  unfold execMovFromBank at h
  split at h
  · rename_i g _
    cases h
    cases g with
    | reg p => exact .write rfl rfl
    | flags => exact ⟨s.flags, 2, fun _ => rfl, .inl ⟨rd, _, rfl, rfl⟩⟩
    | mcr => exact ⟨s.flags, 2, fun _ => rfl, .inl ⟨rd, _, rfl, rfl⟩⟩
  · cases h

/-- Everything the banked destination MOV can lead to as a next state. -/
theorem movToBank_next {s t : State} {rd rm : RegNum} {b : BankSel} (h : execMovToBank rd rm b s = .next t) :
    BankEffect (.movToBank rd rm b) s t := by
  unfold execMovToBank bankedReg at h
  refine ⟨rd, rm, ?_⟩
  cases b with
  | reserved => cases h
  | supervisor =>
    cases h
    exact .inl ⟨.supervisor, .inl ⟨rfl, rfl⟩, rfl⟩
  | interrupt =>
    cases h
    exact .inl ⟨.irq, .inr ⟨rfl, rfl⟩, rfl⟩
  | bank3 =>
    by_cases h0 : rd = 0#4
    · subst h0
      cases h
      exact .inr (.inl ⟨rfl, rfl⟩)
    · by_cases h1 : rd = 1#4
      · subst h1
        simp only [show ¬ (1#4 : RegNum) = 0#4 by decide, if_false, if_true, writeBanked] at h
        split at h
        · cases h
        · rename_i hb
          cases h
          exact .inr (.inr ⟨rfl, by simpa using hb, rfl⟩)
      · simp only [h0, h1, if_false] at h
        cases h

/-- Everything an instruction that answers a next state can have done. -/
theorem exec_next_cases {i : Instr} {s t : State} (h : exec i s = .next t) :
    RegisterEffect i s t ∨ StoreEffect i s t ∨ BankEffect i s t ∨ TrapEffect i s t := by
  have reg : RegisterEffect i s t → RegisterEffect i s t ∨ StoreEffect i s t ∨ BankEffect i s t ∨ TrapEffect i s t :=
    .inl
  have ld : RegisterEffect i s t ∨ TrapEffect i s t →
      RegisterEffect i s t ∨ StoreEffect i s t ∨ BankEffect i s t ∨ TrapEffect i s t := by tauto
  have st : StoreEffect i s t ∨ TrapEffect i s t →
      RegisterEffect i s t ∨ StoreEffect i s t ∨ BankEffect i s t ∨ TrapEffect i s t := by tauto
  have shifted : ∀ (op : ShiftedReg) (k : Word → Result), i.rn = some op.rn → withShifted s op k = .next t →
      (op.rn ≠ 15#4 → k (s.shifted op) = .next t →
        RegisterEffect i s t ∨ StoreEffect i s t ∨ BankEffect i s t ∨ TrapEffect i s t) →
      RegisterEffect i s t ∨ StoreEffect i s t ∨ BankEffect i s t ∨ TrapEffect i s t := by
    intro op k hr hw hk
    rcases withShifted_next hw with ⟨hn, hw⟩ | ⟨hn, f, hs, rfl⟩
    · exact hk hn hw
    · exact .inr (.inr (.inr ⟨f, hs, .inl ⟨by rw [hr, hn], rfl⟩⟩))
  cases i with
  | ldrB rd rm imm => exact ld (load_next (z := .b) rfl rfl h)
  | ldrW rd rm imm => exact ld (load_next (z := .w) rfl rfl h)
  | ldrD rd rm imm => exact ld (load_next (z := .d) rfl rfl h)
  | ldrBR rd rm op =>
    exact shifted op (fun b => load .b rd (s.x rm + b) s) rfl h fun hn h =>
      ld (load_next (a := s.addrReg rm op) (z := .b) rfl (if_neg hn) h)
  | ldrWR rd rm op =>
    exact shifted op (fun b => load .w rd (s.x rm + b) s) rfl h fun hn h =>
      ld (load_next (a := s.addrReg rm op) (z := .w) rfl (if_neg hn) h)
  | ldrDR rd rm op =>
    exact shifted op (fun b => load .d rd (s.x rm + b) s) rfl h fun hn h =>
      ld (load_next (a := s.addrReg rm op) (z := .d) rfl (if_neg hn) h)
  | strB rd rm imm => exact st (store_next (z := .b) rfl rfl h)
  | strW rd rm imm => exact st (store_next (z := .w) rfl rfl h)
  | strD rd rm imm => exact st (store_next (z := .d) rfl rfl h)
  | strBR rd rm op =>
    exact shifted op (fun b => store .b rd (s.x rm + b) s) rfl h fun hn h =>
      st (store_next (a := s.addrReg rm op) (z := .b) rfl (if_neg hn) h)
  | strWR rd rm op =>
    exact shifted op (fun b => store .w rd (s.x rm + b) s) rfl h fun hn h =>
      st (store_next (a := s.addrReg rm op) (z := .w) rfl (if_neg hn) h)
  | strDR rd rm op =>
    exact shifted op (fun b => store .d rd (s.x rm + b) s) rfl h fun hn h =>
      st (store_next (a := s.addrReg rm op) (z := .d) rfl (if_neg hn) h)
  | movt rd imm => exact reg (.write rfl h)
  | mov rd imm => exact reg (.write rfl h)
  | movR rd op =>
    exact shifted op (fun v => .next (s.writeBack rd v)) rfl h fun _ h =>
      reg (.write rfl h)
  | movFromBank rd rm b => exact reg (movFromBank_next h)
  | movToBank rd rm b => exact .inr (.inr (.inl (movToBank_next h)))
  | add rd rm imm => exact reg (.arith rfl rfl h)
  | addR rd rm op =>
    exact shifted op (fun b => .next (addTo rd (s.x rm) b false s)) rfl h fun _ h =>
      reg (.arith rfl rfl h)
  | addc rd rm imm => exact reg (.arith rfl rfl h)
  | addcR rd rm op =>
    exact shifted op (fun b => .next (addTo rd (s.x rm) b s.flags.c s)) rfl h fun _ h =>
      reg (.arith rfl rfl h)
  | sub rd rm imm => exact reg (.arith rfl rfl h)
  | subR rd rm op =>
    exact shifted op (fun b => .next (subTo rd (s.x rm) b false s)) rfl h fun _ h =>
      reg (.arith rfl rfl h)
  | subc rd rm imm => exact reg (.arith rfl rfl h)
  | subcR rd rm op =>
    exact shifted op (fun b => .next (subTo rd (s.x rm) b s.flags.c s)) rfl h fun _ h =>
      reg (.arith rfl rfl h)
  | and rd rm imm => exact reg (.logic rfl rfl h)
  | andR rd rm op =>
    exact shifted op (fun b => .next (logicTo rd (s.x rm &&& b) s)) rfl h fun _ h =>
      reg (.logic rfl rfl h)
  | bic rd rm imm => exact reg (.logic rfl rfl h)
  | bicR rd rm op =>
    exact shifted op (fun b => .next (logicTo rd (s.x rm &&& ~~~b) s)) rfl h fun _ h =>
      reg (.logic rfl rfl h)
  | or rd rm imm => exact reg (.logic rfl rfl h)
  | orR rd rm op =>
    exact shifted op (fun b => .next (logicTo rd (s.x rm ||| b) s)) rfl h fun _ h =>
      reg (.logic rfl rfl h)
  | xor rd rm imm => exact reg (.logic rfl rfl h)
  | xorR rd rm op =>
    exact shifted op (fun b => .next (logicTo rd (s.x rm ^^^ b) s)) rfl h fun _ h =>
      reg (.logic rfl rfl h)
  | cmp rm imm => exact reg (.compare rfl rfl h)
  | cmpR rm op =>
    exact shifted op (fun b => .next (s.setFlags (subFlags (s.x rm) b false)).advance) rfl h fun _ h =>
      reg (.compare rfl rfl h)
  | tst rm imm => exact reg (.test rfl rfl h)
  | tstR rm op =>
    exact shifted op (fun b => .next (s.logicFlags (s.x rm &&& b)).advance) rfl h fun _ h =>
      reg (.test rfl rfl h)
  | bc imm => cases h
  | bcl imm => cases h
  | int imm => cases h

end Sys2Proof.Machine
end

