-- ==== Sys2Proof/Laws/PerInstr.lean ====
section
/-! SUPPORT. The family `Encodable`: an instruction has a word exactly where it is well formed (R102, R109), one lemma
per constructor. -/

namespace Sys2Proof.Laws.Encodable

/-- The encoder answers a word exactly for a well-formed instruction, under every configuration. -/
def Statement (i : Instr) : Prop := ∀ c : Config, (encode c i).isSome = i.wellFormed c

theorem ldrB (rd : RegNum) (rm : RegNum) (imm : BitVec 14) : Statement (.ldrB rd rm imm) := by
  intro c
  simp [encode, encodeM, Instr.wellFormed, Instr.hasOpcode, Instr.sizeHasCode, Instr.accessSize]

theorem ldrW (rd : RegNum) (rm : RegNum) (imm : BitVec 14) : Statement (.ldrW rd rm imm) := by
  intro c
  simp [encode, encodeM, Instr.wellFormed, Instr.hasOpcode, Instr.sizeHasCode, Instr.accessSize]

theorem ldrD (rd : RegNum) (rm : RegNum) (imm : BitVec 14) : Statement (.ldrD rd rm imm) := by
  intro c
  simp [encode, encodeM, Instr.wellFormed, Instr.hasOpcode, Instr.sizeHasCode, Instr.accessSize]

theorem ldrBR (rd : RegNum) (rm : RegNum) (op : ShiftedReg) : Statement (.ldrBR rd rm op) := by
  intro c
  simp [encode, encodeMR, Instr.wellFormed, Instr.hasOpcode, Instr.sizeHasCode, Instr.accessSize]

theorem ldrWR (rd : RegNum) (rm : RegNum) (op : ShiftedReg) : Statement (.ldrWR rd rm op) := by
  intro c
  simp [encode, encodeMR, Instr.wellFormed, Instr.hasOpcode, Instr.sizeHasCode, Instr.accessSize]

theorem ldrDR (rd : RegNum) (rm : RegNum) (op : ShiftedReg) : Statement (.ldrDR rd rm op) := by
  intro c
  simp [encode, encodeMR, Instr.wellFormed, Instr.hasOpcode, Instr.sizeHasCode, Instr.accessSize]

theorem strB (rd : RegNum) (rm : RegNum) (imm : BitVec 14) : Statement (.strB rd rm imm) := by
  intro c
  simp [encode, encodeM, Instr.wellFormed, Instr.hasOpcode, Instr.sizeHasCode, Instr.accessSize]

theorem strW (rd : RegNum) (rm : RegNum) (imm : BitVec 14) : Statement (.strW rd rm imm) := by
  intro c
  simp [encode, encodeM, Instr.wellFormed, Instr.hasOpcode, Instr.sizeHasCode, Instr.accessSize]

theorem strD (rd : RegNum) (rm : RegNum) (imm : BitVec 14) : Statement (.strD rd rm imm) := by
  intro c
  simp [encode, encodeM, Instr.wellFormed, Instr.hasOpcode, Instr.sizeHasCode, Instr.accessSize]

theorem strBR (rd : RegNum) (rm : RegNum) (op : ShiftedReg) : Statement (.strBR rd rm op) := by
  intro c
  simp [encode, encodeMR, Instr.wellFormed, Instr.hasOpcode, Instr.sizeHasCode, Instr.accessSize]

theorem strWR (rd : RegNum) (rm : RegNum) (op : ShiftedReg) : Statement (.strWR rd rm op) := by
  intro c
  simp [encode, encodeMR, Instr.wellFormed, Instr.hasOpcode, Instr.sizeHasCode, Instr.accessSize]

theorem strDR (rd : RegNum) (rm : RegNum) (op : ShiftedReg) : Statement (.strDR rd rm op) := by
  intro c
  simp [encode, encodeMR, Instr.wellFormed, Instr.hasOpcode, Instr.sizeHasCode, Instr.accessSize]

theorem movt (rd : RegNum) (imm : BitVec 16) : Statement (.movt rd imm) := fun _ => rfl

theorem mov (rd : RegNum) (imm : BitVec 16) : Statement (.mov rd imm) := fun _ => rfl

theorem movR (rd : RegNum) (op : ShiftedReg) : Statement (.movR rd op) := fun _ => rfl

theorem movFromBank (rd : RegNum) (rm : RegNum) (bank : BankSel) : Statement (.movFromBank rd rm bank) := fun _ => rfl

theorem movToBank (rd : RegNum) (rm : RegNum) (bank : BankSel) : Statement (.movToBank rd rm bank) := fun _ => rfl

theorem add (rd : RegNum) (rm : RegNum) (imm : BitVec 16) : Statement (.add rd rm imm) := fun _ => rfl

theorem addR (rd : RegNum) (rm : RegNum) (op : ShiftedReg) : Statement (.addR rd rm op) := fun _ => rfl

theorem addc (rd : RegNum) (rm : RegNum) (imm : BitVec 16) : Statement (.addc rd rm imm) := fun _ => rfl

theorem addcR (rd : RegNum) (rm : RegNum) (op : ShiftedReg) : Statement (.addcR rd rm op) := fun _ => rfl

theorem sub (rd : RegNum) (rm : RegNum) (imm : BitVec 16) : Statement (.sub rd rm imm) := fun _ => rfl

theorem subR (rd : RegNum) (rm : RegNum) (op : ShiftedReg) : Statement (.subR rd rm op) := fun _ => rfl

theorem subc (rd : RegNum) (rm : RegNum) (imm : BitVec 16) : Statement (.subc rd rm imm) := fun _ => rfl

theorem subcR (rd : RegNum) (rm : RegNum) (op : ShiftedReg) : Statement (.subcR rd rm op) := fun _ => rfl

theorem and (rd : RegNum) (rm : RegNum) (imm : BitVec 16) : Statement (.and rd rm imm) := fun _ => rfl

theorem andR (rd : RegNum) (rm : RegNum) (op : ShiftedReg) : Statement (.andR rd rm op) := fun _ => rfl

theorem bic (rd : RegNum) (rm : RegNum) (imm : BitVec 16) : Statement (.bic rd rm imm) := fun _ => rfl

theorem bicR (rd : RegNum) (rm : RegNum) (op : ShiftedReg) : Statement (.bicR rd rm op) := fun _ => rfl

theorem or (rd : RegNum) (rm : RegNum) (imm : BitVec 16) : Statement (.or rd rm imm) := fun _ => rfl

theorem orR (rd : RegNum) (rm : RegNum) (op : ShiftedReg) : Statement (.orR rd rm op) := fun _ => rfl

theorem xor (rd : RegNum) (rm : RegNum) (imm : BitVec 16) : Statement (.xor rd rm imm) := fun _ => rfl

theorem xorR (rd : RegNum) (rm : RegNum) (op : ShiftedReg) : Statement (.xorR rd rm op) := fun _ => rfl

theorem cmp (rm : RegNum) (imm : BitVec 16) : Statement (.cmp rm imm) := fun _ => rfl

theorem cmpR (rm : RegNum) (op : ShiftedReg) : Statement (.cmpR rm op) := fun _ => rfl

theorem tst (rm : RegNum) (imm : BitVec 16) : Statement (.tst rm imm) := fun _ => rfl

theorem tstR (rm : RegNum) (op : ShiftedReg) : Statement (.tstR rm op) := fun _ => rfl

theorem bc (imm : BitVec 16) : Statement (.bc imm) := fun _ => rfl

theorem bcl (imm : BitVec 16) : Statement (.bcl imm) := fun _ => rfl

theorem int (imm : BitVec 16) : Statement (.int imm) := fun _ => rfl

end Sys2Proof.Laws.Encodable
end

