-- ==== Sys2Proof/Tests/Slice0.lean ====
section
/-! SUPPORT. The model's own tests. Expected values are those of spec/95_test_vectors.md, or computed by hand from the
rule named; each step test runs one step of a small state. The witnesses at the end meet the hypotheses of the
statements. -/

namespace Sys2Proof.Tests

open Sys2Proof.Machine Sys2Proof.Claims

set_option maxRecDepth 4000

/-! Well-formedness. -/

/-- A SIZE_CODE that names no code for `.D`. -/
def noD : Config := { Config.default with sizeCode := ⟨some .b, some .w, none, none⟩ }
/-- RESERVED_FIELD_POLICY = refuse. -/
def strict : Config := { Config.default with reservedFieldPolicy := .refuse }
/-- OPCODE_PLACEMENT = high6. -/
def high : Config := { Config.default with opcodePlacement := .high6 }
/-- UNASSIGNED_OPCODE = UD. -/
def allUd : Config := { Config.default with unassignedOpcode := .ud }
/-- TRAP_ENTRY = the entry function number 0. -/
def supplied : Config := { Config.default with trapEntry := .supplied 0 }
/-- ALIGN_CHECK = true, AC_RULE = four_byte. -/
def four : Config := { Config.default with alignCheck := true }
/-- ALIGN_CHECK = true, AC_RULE = natural. -/
def natural : Config := { Config.default with alignCheck := true, acRule := .natural }
/-- MEM_DOMAIN without the bytes from 0x2002 on. -/
def small : Config := { Config.default with memDomain := [⟨0, 0x1000⟩, ⟨0x1000, 0x1002⟩] }

/-- An instruction without an opcode is refused (R109). -/
theorem test_wellFormed_opcode :
    (Instr.bc 0).wellFormed Config.default = false ∧ (Instr.bcl 0).wellFormed Config.default = false ∧
      (Instr.int 0).wellFormed Config.default = false ∧ (Instr.add 2 1 3).wellFormed Config.default = true := by
  decide

/-- A size without a size code is refused (R102). -/
theorem test_wellFormed_size :
    (Instr.ldrD 1 4 8).wellFormed noD = false ∧ (Instr.strDR 1 4 ⟨2, .left, 2⟩).wellFormed noD = false ∧
      (Instr.ldrW 1 4 8).wellFormed noD = true ∧ (Instr.ldrD 1 4 8).wellFormed Config.default = true := by
  decide

/-! Decoding: words of 95_test_vectors.md sections 2 and 3, the others by hand from R92 to R94. -/

/-- The decoder reads `i` from `w`, and the encoder writes `w` for `i`. -/
def readsAs (w : Nat) (i : Instr) : Bool :=
  decide (decodeTableWord 32 w = some i) && decide (encode Config.default i = some (BitVec.ofNat 32 w))

theorem test_words_load :
    readsAs 0x08143FFF (.ldrB 1 4 0x3FFF) ∧
      readsAs 0x08144006 (.ldrW 1 4 6) ∧
      readsAs 0x08148008 (.ldrD 1 4 8) ∧
      readsAs 0x18243010 (.ldrBR 2 4 ⟨3, .left, 1⟩) ∧
      readsAs 0x18243110 (.ldrWR 2 4 ⟨3, .left, 1⟩) ∧
      readsAs 0x18243210 (.ldrDR 2 4 ⟨3, .left, 1⟩) := by
  decide

theorem test_words_store :
    readsAs 0x09F43FFC (.strB 15 4 0x3FFC) ∧
      readsAs 0x09144006 (.strW 1 4 6) ∧
      readsAs 0x09048000 (.strD 0 4 0) ∧
      readsAs 0x19142020 (.strBR 1 4 ⟨2, .left, 2⟩) ∧
      readsAs 0x19142124 (.strWR 1 4 ⟨2, .right, 2⟩) ∧
      readsAs 0x1914222C (.strDR 1 4 ⟨2, .rotateRight, 2⟩) := by
  decide

theorem test_words_move :
    readsAs 0x01001234 (.movt 0 0x1234) ∧
      readsAs 0x00100005 (.mov 1 5) ∧
      readsAs 0x11202084 (.movR 2 ⟨2, .right, 8⟩) ∧
      readsAs 0x111020F8 (.movR 1 ⟨2, .signedRight, 15⟩) ∧
      readsAs 0x12280002 (.movFromBank 2 8 .interrupt) ∧
      readsAs 0x12200003 (.movFromBank 2 0 .bank3) ∧
      readsAs 0x13820001 (.movToBank 8 2 .supervisor) ∧
      readsAs 0x13100003 (.movToBank 1 0 .bank3) ∧
      readsAs 0x12280000 (.movFromBank 2 8 .reserved) := by
  decide

theorem test_words_arith :
    readsAs 0x20210003 (.add 2 1 3) ∧
      readsAs 0x30402000 (.addR 4 0 ⟨2, .left, 0⟩) ∧
      readsAs 0x21510000 (.addc 5 1 0) ∧
      readsAs 0x31513000 (.addcR 5 1 ⟨3, .left, 0⟩) ∧
      readsAs 0x2211FFFF (.sub 1 1 0xFFFF) ∧
      readsAs 0x32402000 (.subR 4 0 ⟨2, .left, 0⟩) ∧
      readsAs 0x23510000 (.subc 5 1 0) ∧
      readsAs 0x33513000 (.subcR 5 1 ⟨3, .left, 0⟩) ∧
      readsAs 0x2A010005 (.cmp 1 5) ∧
      readsAs 0x3A012000 (.cmpR 1 ⟨2, .left, 0⟩) := by
  decide

theorem test_words_logic :
    readsAs 0x24220400 (.and 2 2 0x0400) ∧
      readsAs 0x34123040 (.andR 1 2 ⟨3, .left, 4⟩) ∧
      readsAs 0x251100FF (.bic 1 1 0x00FF) ∧
      readsAs 0x35123000 (.bicR 1 2 ⟨3, .left, 0⟩) ∧
      readsAs 0x26110001 (.or 1 1 1) ∧
      readsAs 0x36123080 (.orR 1 2 ⟨3, .left, 8⟩) ∧
      readsAs 0x2711FFFF (.xor 1 1 0xFFFF) ∧
      readsAs 0x37123000 (.xorR 1 2 ⟨3, .left, 0⟩) ∧
      readsAs 0x2C010001 (.tst 1 1) ∧
      readsAs 0x3C012000 (.tstR 1 ⟨2, .left, 0⟩) := by
  decide

/-- R111: bits of a field that is not read change nothing. -/
theorem test_unread_fields_ignored :
    decodeTableWord 32 0x00190005 = some (.mov 1 5) ∧
      decodeTableWord 32 0x11172F03 = some (.movR 1 ⟨2, .left, 0⟩) ∧
      decodeTableWord 32 0x3A712000 = some (.cmpR 1 ⟨2, .left, 0⟩) ∧
      decodeTableWord 32 0x1228F002 = some (.movFromBank 2 8 .interrupt) := by
  decide

/-- R111 under RESERVED_FIELD_POLICY = refuse. -/
theorem test_unread_fields_refused :
    decodeWord strict 0x00190005 = .refuse .nonZeroUnusedField ∧
      decodeWord strict 0x11172F03 = .refuse .nonZeroUnusedField ∧
      decodeWord strict 0x3A712000 = .refuse .nonZeroUnusedField ∧
      decodeWord strict 0x1228F002 = .refuse .nonZeroUnusedField ∧
      decodeWord strict 0x00100005 = .instr (.mov 1 5) := by
  decide

/-- R110: opcode values with no row. -/
theorem test_unassigned_refused :
    ([0x02000000, 0x0A000000, 0x10000000, 0x14000000, 0x28000000, 0x2B000000, 0x3F000000, 0x40000000, 0xFF000000].all
      fun w => decide (decodeWord Config.default w = .refuse .unassignedOpcode) &&
        decide (decodeWord allUd w = .ud)) = true := by
  decide

/-- R102 and R195: size code 11, and Rn = 15 before it. -/
theorem test_size_code_reserved :
    decodeWord Config.default 0x0814C000 = .refuse .reservedSizeCode ∧
      decodeWord Config.default 0x18243310 = .refuse .reservedSizeCode ∧
      decodeWord Config.default 0x1824F310 = .ud := by
  decide

/-- R96: the words of section 2 under OPCODE_PLACEMENT = high6. -/
theorem test_high6 :
    decodeWord high 0x20148008 = .instr (.ldrD 1 4 8) ∧ decodeWord high 0x80210003 = .instr (.add 2 1 3) ∧
      decodeWord high 0x81210003 = .refuse .unassignedOpcode ∧
      encode high (.add 2 1 3) = some 0x80210003 := by
  decide

/-! One step. -/

/-- Supervisor mode, pc 0x1000, the word `w` there, the named registers set, under a configuration. -/
def startWith (c : Config) (w : Nat) (rs : List (RegNum × Word)) : State :=
  rs.foldl (fun s p => s.put (regOf .supervisor p.1) p.2)
    (State.withFetchWord { State.resetWith c with pc := 0x1000 } 32 w)

/-- The same under the default configuration. -/
def start (w : Nat) (rs : List (RegNum × Word)) : State := startWith Config.default w rs

/-- Some bytes of memory set. -/
def State.bytes (s : State) (bs : List (Nat × Byte)) : State :=
  { s with mem := bs.foldl (fun m p => Memory.write m p.1 p.2) s.mem }

/-- The memory of the load vectors of section 5. -/
def loadBytes : List (Nat × Byte) :=
  [(0x1FFF, 0x80), (0x2006, 0xCD), (0x2007, 0xAB), (0x2008, 0x78), (0x2009, 0x56), (0x200A, 0x34), (0x200B, 0x12)]

/-- A part of the state after one step, if there is a next state. -/
def after {α : Type} (s : State) (f : State → α) : Option α :=
  match step s with
  | .next t => some (f t)
  | .fault _ => none
  | .refused _ => none

/-- A register and N, Z, C, V after one step. -/
def regFlags (s : State) (n : RegNum) : Option (Word × BitVec 4) := after s fun t => (t.x n, t.flags.bits)

/-- A register, and N and Z alone, after one step. -/
def regNz (s : State) (n : RegNum) : Option (Word × Bool × Bool) := after s fun t => (t.x n, t.flags.n, t.flags.z)

/-- The word at an address, after one step. -/
def wordAt (s : State) (a : Word) : Option Word := after s fun t => t.memRead a 4

/-- The step's fault. -/
def faultAfter (s : State) : Option Fault :=
  match step s with
  | .fault f => some f
  | .next _ => none
  | .refused _ => none

/-- The step's refusal. -/
def refusalAfter (s : State) : Option Refusal :=
  match step s with
  | .refused r => some r
  | .next _ => none
  | .fault _ => none

/-- The flags set. -/
def State.carry (s : State) : State := { s with flags := ⟨false, false, true, false⟩ }

/-! Section 5. -/

theorem test_ldrB : after (State.bytes (start 0x08143FFF [(4, 0x2000)]) loadBytes) (fun t => (t.x 1, t.pc)) = some (0x80, 0x1004) := by decide

theorem test_ldrB_sign_wrap : after (State.bytes (startWith { Config.default with narrowLoadExt := .sign } 0x08143FFF [(4, 0x2000)]) loadBytes) (fun t => t.x 1) = some 0xFFFFFF80 ∧
    after (State.bytes (start 0x08140009 [(4, 0xFFFFFFFF)]) [(8, 0x5A)]) (fun t => t.x 1) = some 0x5A := by decide

theorem test_ldrW : after (State.bytes (start 0x08144006 [(4, 0x2000)]) loadBytes) (fun t => t.x 1) = some 0xABCD := by decide

theorem test_ldrW_misaligned : refusalAfter (State.bytes (start 0x08144001 [(4, 0x2000)]) loadBytes) = some .misalignedAccess := by decide

theorem test_ldrD : after (State.bytes (start 0x08448008 [(4, 0x2000)]) loadBytes) (fun t => t.x 4) = some 0x12345678 := by decide

theorem test_ldrD_pc : after (State.bytes (start 0x08F48008 [(4, 0x2000)]) [(0x2008, 0x40), (0x2009, 0x10)]) (fun t => t.pc) = some 0x1040 := by decide

/-- By hand from R131: the byte at 0x2000 + (3 << 1). -/
theorem test_ldrBR : after (State.bytes (start 0x18243010 [(4, 0x2000), (3, 3)]) loadBytes) (fun t => t.x 2) = some 0xCD := by decide

theorem test_ldrWR : after (State.bytes (start 0x18243110 [(4, 0x2000), (3, 3)]) loadBytes) (fun t => t.x 2) = some 0xABCD := by decide

theorem test_ldrDR_ud : faultAfter (State.bytes (start 0x1824F200 [(4, 0x2000)]) loadBytes) = some (.ud 0x1000) := by decide

/-- By hand from R131: the word at 0x2000 + (4 << 1). -/
theorem test_ldrDR : after (State.bytes (start 0x18243210 [(4, 0x2000), (3, 4)]) loadBytes) (fun t => t.x 2) = some 0x12345678 := by decide

/-- By hand from R132: one byte at 0x2005. -/
theorem test_strB : wordAt (State.bytes (start 0x09140001 [(4, 0x2004), (1, 0x123456AB)]) [(0x2004, 0x77)]) 0x2004 = some 0xAB77 := by decide

theorem test_strW : after (start 0x09144006 [(4, 0x2000), (1, 0x123456AB)]) (fun t => (t.memRead 0x2004 4, t.stored)) =
    some (0x56AB0000, [0x2006, 0x2007]) := by decide

theorem test_strD : wordAt (start 0x09448000 [(4, 0x2000)]) 0x2000 = some 0x2000 := by decide

theorem test_strD_pc : wordAt (start 0x09F4BFFC [(4, 0x2004)]) 0x2000 = some 0x1000 := by decide

theorem test_strBR : wordAt (start 0x19142020 [(4, 0x2000), (2, 3), (1, 0x123456AB)]) 0x200C = some 0xAB := by decide

/-- By hand from R133. -/
theorem test_strWR : wordAt (start 0x19142120 [(4, 0x2000), (2, 1), (1, 0x123456AB)]) 0x2004 = some 0x56AB := by decide

/-- By hand from R133 and R67, BYTE_ORDER = big. -/
theorem test_strDR : after (startWith { Config.default with byteOrder := .big } 0x19142220 [(4, 0x2000), (2, 1), (1, 0x123456AB)])
    (fun t => Memory.read t.mem 0x2004) = some 0x12 := by decide

theorem test_strDR_ud : faultAfter (start 0x1914F200 [(4, 0x2000), (1, 1)]) = some (.ud 0x1000) := by decide

/-- The ALIGN_CHECK table of section 5. -/
theorem test_ac_rules : faultAfter (State.bytes (startWith four 0x08144006 [(4, 0x2000)]) loadBytes) = some (.ac 0x2006 0x1000) ∧
    after (State.bytes (startWith natural 0x08144006 [(4, 0x2000)]) loadBytes) (fun t => t.x 1) = some 0xABCD ∧
    faultAfter (State.bytes (startWith natural 0x08144001 [(4, 0x2000)]) loadBytes) = some (.ac 0x2001 0x1000) := by decide

/-- A store to the next instruction: the fetch after it is refused (R79). -/
theorem test_modified_code : after (start 0x091F8004 [(1, 0)]) refusalAfter = some (some .modifiedCode) := by decide

/-! Sections 4 and 6. -/

theorem test_movt : after (start 0x01001234 [(0, 0xFFFF8000)]) (fun t => t.x 0) = some 0x12348000 := by decide

theorem test_movt_pc : after (start 0x01F00002 []) (fun t => t.pc) = some 0x00021000 := by decide

theorem test_mov : after (start 0x00008000 []) (fun t => t.x 0) = some 0xFFFF8000 := by decide

theorem test_mov_pc : after (start 0x00F02000 []) (fun t => t.pc) = some 0x2000 := by decide

theorem test_movR : after (start 0x111020F8 [(2, 0x80000001)]) (fun t => t.x 1) = some 0xFFFF0000 ∧
    after (start 0x1110204C [(2, 0x80000001)]) (fun t => t.x 1) = some 0x18000000 ∧
    after (start 0x111020F4 [(2, 0x80000001)]) (fun t => t.x 1) = some 0x00010000 ∧
    after (start 0x111020F0 [(2, 0x80010001)]) (fun t => t.x 1) = some 0x80008000 := by decide

theorem test_movR_pc_operand : faultAfter (start 0x1110F000 []) = some (.ud 0x1000) ∧
    after (start 0x11F0E000 [(14, 0x1236)]) refusalAfter = some (some .unalignedPc) := by decide

theorem test_movFromBank : after (start 0x12280002 [(8, 0x11)]) (fun t => t.x 2) = some 0 ∧
    after ({ start 0x12280001 [(8, 0x11)] with mcr := ⟨false, false, 0, 0, 0, 0⟩ }) (fun t => t.x 2) = some 0x11 ∧
    refusalAfter (start 0x12280000 []) = some .reservedBank ∧ refusalAfter (start 0x12220003 []) = some .reservedBank3 := by decide

/-- Whatever the reserved bits are drawn as: bits 11:8 of FLAGS are 0100, and MCR reads 0x00000A0B outside bits 2, 12 and
13 (section 6). -/
theorem test_movFromBank_system (hi : BitVec 20) (lo : BitVec 8) (d2 : BitVec 2) (d1 : BitVec 1) :
    (flagsWord ⟨false, true, false, false⟩ hi lo).extractLsb' 8 4 = 0b0100#4 ∧
      mcrWord ⟨true, true, 1, 0b1010, 0, 0⟩ d2 d1 &&& 0xFFFFCFFB#32 = 0x00000A0B#32 := by
  refine ⟨flagsWord_bits _ _ _, ?_⟩
  revert d2 d1
  decide

theorem test_movToBank : after (start 0x13820002 [(2, 7), (8, 0x11)]) (fun t => (t.get (.irq 0), t.get (.sup 0))) = some (7, 0x11) ∧
    after (start 0x13F30001 [(3, 0x1040)]) (fun t => t.pc) = some 0x1040 := by decide

theorem test_movToBank_system : after (start 0x13020003 [(2, 0xA00)]) (fun t => t.flags.bits) = some 0b1010 ∧
    after (start 0x13100003 [(0, 0x00003006)]) (fun t => (t.mcr, t.pc)) = some (⟨false, true, 0, 0, 0, 0⟩, 0x1004) ∧
    refusalAfter (start 0x13100003 [(0, 0x4002)]) = some .debugMode := by decide

/-! Section 7. -/

theorem test_add : regFlags (start 0x20210001 [(1, 0x7FFFFFFF)]) 2 = some (0x80000000, 0b1001) := by decide

theorem test_add_pc : regFlags (start 0x20FFFFF8 []) 15 = some (0xFF8, 0b0010) := by decide

theorem test_addR : regFlags (start 0x30402000 [(0, 0x80000000), (2, 0x80000000)]) 4 = some (0, 0b0111) := by decide

theorem test_addc : regFlags (State.carry (start 0x21510000 [(1, 0xFFFFFFFF)])) 5 = some (0, 0b0110) := by decide

theorem test_addcR : regFlags (State.carry (start 0x31513000 [(1, 0xFFFFFFFF), (3, 0xFFFFFFFF)])) 5 = some (0xFFFFFFFF, 0b1010) := by decide

theorem test_sub : regFlags (start 0x2211FFFF [(1, 5)]) 1 = some (6, 0b0010) := by decide

theorem test_sub_overflow : regFlags (start 0x22110001 [(1, 0x80000000)]) 1 = some (0x7FFFFFFF, 0b0001) := by decide

theorem test_subR : regFlags (start 0x32402000 [(0, 0x7FFFFFFF), (2, 0xFFFFFFFF)]) 4 = some (0x80000000, 0b1011) := by decide

theorem test_subc : regFlags (State.carry (start 0x23510000 [(1, 0)])) 5 = some (0xFFFFFFFF, 0b1010) := by decide

theorem test_subcR : regFlags (State.carry (start 0x33513000 [(1, 0), (3, 0xFFFFFFFF)])) 5 = some (0, 0b0110) := by decide

theorem test_cmp : regFlags (start 0x2A010005 [(1, 4)]) 1 = some (4, 0b1010) := by decide

theorem test_cmpR : regFlags (start 0x3A012000 [(1, 0x80000000), (2, 1)]) 1 = some (0x80000000, 0b0001) := by decide

/-! Section 8. -/

theorem test_and : regNz (start 0x24118000 [(1, 0x12348765)]) 1 = some (0x12348000, false, false) := by decide

theorem test_andR : regNz (start 0x34123040 [(2, 0xFF), (3, 0xF)]) 1 = some (0xF0, false, false) := by decide

theorem test_bic : regNz (start 0x25118000 [(1, 0x12345678)]) 1 = some (0x5678, false, false) := by decide

theorem test_bicR : regNz (start 0x35123000 [(2, 0xFFFFFFFF), (3, 0x0F0F0F0F)]) 1 = some (0xF0F0F0F0, true, false) := by decide

theorem test_or : regNz (start 0x26110001 [(1, 0x80000000)]) 1 = some (0x80000001, true, false) := by decide

theorem test_orR : regNz (start 0x36123080 [(2, 0x12), (3, 0x34)]) 1 = some (0x3412, false, false) := by decide

theorem test_xor : regNz (start 0x2711FFFF [(1, 0x0F0F0F0F)]) 1 = some (0xF0F0F0F0, true, false) := by decide

theorem test_xorR : regNz (start 0x37123000 [(2, 0xAAAA5555), (3, 0xAAAA5555)]) 1 = some (0, false, true) := by decide

theorem test_tst : regNz (start 0x2C010001 [(1, 2)]) 1 = some (2, false, true) := by decide

theorem test_tstR : regNz (start 0x3C012000 [(1, 0x80000000), (2, 0xFFFFFFFF)]) 1 = some (0x80000000, true, false) := by decide

/-- LOGIC_CV = unchanged and cleared (R153). -/
theorem test_logic_cv : regFlags (State.carry (startWith { Config.default with logicCV := .unchanged } 0x24110000 [(1, 0x1234)])) 1 =
      some (0, 0b0110) ∧
    regFlags (State.carry (startWith { Config.default with logicCV := .cleared } 0x24110000 [(1, 0x1234)])) 1 =
      some (0, 0b0100) := by decide

theorem test_control_refused :
    exec (.bc 0) State.reset = .refused (.noEncoding "B<c>") ∧
      exec (.bcl 0) State.reset = .refused (.noEncoding "B<c>L") ∧
      exec (.int 0) State.reset = .refused (.noEncoding "INT") :=
  ⟨rfl, rfl, rfl⟩

/-! Exceptions and the instruction boundary. -/

/-- A supplied entry (R200): IRQ mode, MCR.F the flags before, r0 to r7, the supervisor bank kept. -/
theorem test_supplied_entry :
    after (State.carry (startWith supplied 0x1110F000 [(1, 9), (14, 0x77)]))
      (fun t => (t.mcr.s, t.mcr.f, t.get (.shared 1), t.get (.sup 6))) = some (false, 0b0010, 9, 0x77) := by
  decide

/-- An entry function is a function of the state and the cause: where it sends #UD to, the pc is (R196). -/
theorem test_entry_function (h : (Config.suppliedEntry 0 (startWith supplied 0x1110F000 []) .ud).pc = 0x2000) :
    after (startWith supplied 0x1110F000 []) (fun t => t.pc) = some 0x2000 := by
  rw [← h]
  rfl

/-- An interrupt's vector number stands in MCR.V after its entry (R200). -/
theorem test_interrupt_entry :
    (State.enterTrap (startWith supplied 0 []) 0 (.interrupt 17)).mcr.v = 17#5 ∧
      takeException State.reset (.interrupt 31) = .fault (.interrupt 31 0) :=
  ⟨rfl, rfl⟩

/-- An opcode without a row under UNASSIGNED_OPCODE = UD faults at the instruction's own address (R110, R196). -/
theorem test_unassigned_ud : faultAfter (startWith allUd 0x02000000 []) = some (.ud 0x1000) := by decide

/-- After a word has been placed it is fetched, although it was stored to before (R79, R229). -/
theorem test_placed_word_is_fetched :
    after (State.withFetchWord { State.reset with stored := [0, 1, 2, 3] } 32 0x00100005) (fun t => t.x 1) = some 5 := by
  decide

/-! Witnesses: each shows a concrete state and operands that meet the hypotheses of the statement it is named after. -/

/-- The step answers a next state. -/
def goesOn (s : State) : Bool :=
  match step s with
  | .next _ => true
  | .fault _ => false
  | .refused _ => false

/-- The instruction answers a next state. -/
def completes (i : Instr) (s : State) : Bool :=
  match exec i s with
  | .next _ => true
  | .fault _ => false
  | .refused _ => false

theorem step_of_goesOn {s : State} (h : goesOn s = true) : ∃ t, step s = .next t := by
  unfold goesOn at h
  cases hs : step s <;> rw [hs] at h
  · exact ⟨_, rfl⟩
  · cases h
  · cases h

theorem exec_of_completes {i : Instr} {s : State} (h : completes i s = true) : ∃ t, exec i s = .next t := by
  unfold completes at h
  cases hs : exec i s <;> rw [hs] at h
  · exact ⟨_, rfl⟩
  · cases h
  · cases h

theorem witness_DecodeEncodeAgree :
    (Instr.strDR 1 4 ⟨15, .rotateRight, 15⟩).wellFormed Config.default = true ∧
      (Instr.ldrW 15 0 0x3FFF).wellFormed { high with sizeCode := ⟨some .d, none, some .w, none⟩ } = true := by
  decide

theorem witness_EncodeDecodeAgree :
    strict.reservedFieldPolicy = .refuse ∧
      (∀ j k z, strict.sizeCode.sizeOf j = some z → strict.sizeCode.sizeOf k = some z → j = k) ∧
      decodeWord strict 0x18243110 = .instr (.ldrWR 2 4 ⟨3, .left, 1⟩) := by
  refine ⟨rfl, ?_, by decide⟩
  intro j k z
  revert j k
  cases z <;> decide

theorem witness_UnreadFieldsIgnored :
    Config.default.reservedFieldPolicy = .ignore ∧
      decodeWord Config.default 0x11102000 = .instr (.movR 1 ⟨2, .left, 0⟩) ∧
      0x11172F03#32 &&& ~~~(notRead (.movR 1 ⟨2, .left, 0⟩)) = 0x11102000#32 &&& ~~~(notRead (.movR 1 ⟨2, .left, 0⟩)) := by
  decide

/-- Both placements (0x1914222C and 0x13E30002 with the six bits left-aligned: 4 * 0x19 = 0x64, 4 * 0x13 = 0x4C). -/
theorem witness_FieldsAtTheirPlaces :
    Config.default.opcodePlacement = .low6 ∧ high.opcodePlacement = .high6 ∧
      high.sizeCode = Config.default.sizeCode ∧
      decodeWord Config.default 0x1914222C = .instr (.strDR 1 4 ⟨2, .rotateRight, 2⟩) ∧
      decodeWord Config.default 0x13E30002 = .instr (.movToBank 14 3 .interrupt) ∧
      decodeWord high 0x6414222C = .instr (.strDR 1 4 ⟨2, .rotateRight, 2⟩) ∧
      decodeWord high 0x4CE30002 = .instr (.movToBank 14 3 .interrupt) := by
  decide

/-- Both placements; 0x81 and 0x42 have a bit below the six. -/
theorem witness_UnassignedOpcodesStop :
    (∀ w ∈ [0x02000000#32, 0x3D000000#32, 0xFFFFFFFF#32],
        ∀ op6 ∈ assigned, w.toNat / 2 ^ 24 ≠ placed allUd.opcodePlacement op6) ∧
      ∀ w ∈ [0x81000000#32, 0x42000000#32, 0xF4000000#32, 0xFFFFFFFF#32],
        ∀ op6 ∈ assigned, w.toNat / 2 ^ 24 ≠ placed high.opcodePlacement op6 := by
  simp [assigned, placed, allUd, high, Config.default]

/-- Both clauses under both placements. -/
theorem witness_ReservedSizeCodeStops :
    Config.default.reservedFieldPolicy = .ignore ∧ high.reservedFieldPolicy = .ignore ∧
      (0x0914C000#32).toNat / 2 ^ 24 = placed Config.default.opcodePlacement 0x09 ∧
      (0x0914C000#32).toNat / 2 ^ 14 % 4 = 3 ∧
      (0x18243310#32).toNat / 2 ^ 24 = placed Config.default.opcodePlacement 0x18 ∧
      (0x18243310#32).toNat / 2 ^ 8 % 4 = 3 ∧ (0x18243310#32).toNat / 2 ^ 12 % 16 ≠ 15 ∧
      (0x2014C000#32).toNat / 2 ^ 24 = placed high.opcodePlacement 0x08 ∧
      (0x2014C000#32).toNat / 2 ^ 14 % 4 = 3 ∧
      (0x6424FF10#32).toNat / 2 ^ 24 = placed high.opcodePlacement 0x19 ∧
      (0x6424FF10#32).toNat / 2 ^ 8 % 4 = 3 ∧ (0x6424FF10#32).toNat / 2 ^ 12 % 16 = 15 := by
  decide

/-- A set unread bit with rn = 15 under both placements and in a state that fetches it, and a word with none. -/
theorem witness_UnreadFieldsRefused :
    (0x18, 0x00000C03#32) ∈ unreadTable ∧ (0x13, 0x0000FFFC#32) ∈ unreadTable ∧
      (0x1824F701#32).toNat / 2 ^ 24 = placed strict.opcodePlacement 0x18 ∧ strict.reservedFieldPolicy = .refuse ∧
      0x1824F701#32 &&& 0x00000C03#32 ≠ 0#32 ∧ Fetches (startWith strict 0x1824F701 []) ∧
      (startWith strict 0x1824F701 []).config = strict ∧
      (startWith strict 0x1824F701 []).memRead (startWith strict 0x1824F701 []).pc 4 = 0x1824F701#32 ∧
      (0x4CE30002#32).toNat / 2 ^ 24 = placed high.opcodePlacement 0x13 ∧ 0x4CE30002#32 &&& 0x0000FFFC#32 = 0#32 ∧
      0x4CE3F002#32 &&& 0x0000FFFC#32 ≠ 0#32 := by
  decide

/-- Each of the three clauses, the first also at the last word of the address space. -/
theorem witness_StepRunsDecodedInstruction :
    Fetches (start 0x00100005 []) ∧
      decodeWord (start 0x00100005 []).config ((start 0x00100005 []).memRead 0x1000 4) = .instr (.mov 1 5) ∧
      Fetches { State.reset with pc := 0xFFFFFFFC } ∧ Fetches (startWith allUd 0x02000000 []) ∧
      decodeWord allUd ((startWith allUd 0x02000000 []).memRead 0x1000 4) = .ud ∧
      Fetches (start 0x02000000 []) ∧
      decodeWord Config.default ((start 0x02000000 []).memRead 0x1000 4) = .refuse .unassignedOpcode := by
  decide

/-- Clause 1 of StopsBeforeDecode: the pc is END_PC. -/
theorem witness_StopsBeforeDecode_end :
    (State.resetWith { Config.default with endPc := some 0 }).config.endPc =
      some (State.resetWith { Config.default with endPc := some 0 }).pc := by
  decide

/-- Clause 2: debug mode, under any_time with MCR.I clear. -/
theorem witness_StopsBeforeDecode_debug :
    let s : State := { State.resetWith { Config.default with irqOracle := .anyTime, endPc := some 4 } with
      mcr := ⟨false, true, 0, 0, 1, 0⟩ }
    s.config.endPc ≠ some s.pc ∧ s.mcr.i = false ∧ s.mcr.dbg = true := by
  decide

/-- Clause 3: the least and the greatest pc that is not aligned. -/
theorem witness_StopsBeforeDecode_pc :
    let s : State := { State.reset with pc := 1 }
    let u : State := { State.reset with pc := 0xFFFFFFFF }
    (s.config.endPc ≠ some s.pc ∧ s.config.irqOracle = .never ∧ s.mcr.dbg = false ∧ s.pc.toNat % 4 ≠ 0) ∧
      u.config.endPc ≠ some u.pc ∧ u.config.irqOracle = .never ∧ u.mcr.dbg = false ∧ u.pc.toNat % 4 ≠ 0 := by
  decide

/-- Clause 4: the last byte of the instruction outside MEM_DOMAIN. -/
theorem witness_StopsBeforeDecode_domain :
    let s := startWith { Config.default with memDomain := [⟨0, 0x1003⟩] } 0x00100005 []
    s.config.endPc ≠ some s.pc ∧ s.config.irqOracle = .never ∧ s.mcr.dbg = false ∧ s.pc.toNat % 4 = 0 ∧
      ¬ BytesInDomain s.config s.pc 4 := by
  decide

/-- Clause 5: the last byte of the instruction stored to. -/
theorem witness_StopsBeforeDecode_stored :
    let s : State := { start 0x00100005 [] with stored := [0x1003] }
    s.config.endPc ≠ some s.pc ∧ s.config.irqOracle = .never ∧ s.mcr.dbg = false ∧ s.pc.toNat % 4 = 0 ∧
      BytesInDomain s.config s.pc 4 ∧ ∃ k, k < 4 ∧ (s.pc + BitVec.ofNat 32 k).toNat ∈ s.stored := by
  decide

theorem witness_InterruptAtBoundary :
    let s : State := { State.resetWith { Config.default with irqOracle := .anyTime } with
      mcr := ⟨true, true, 0, 0, 0, 0⟩ }
    s.config.endPc ≠ some s.pc ∧ s.config.irqOracle = .anyTime ∧ s.mcr.i = true := by
  decide

theorem witness_PcAsRnRaisesUd :
    (Instr.tstR 1 ⟨15, .left, 0⟩).rn = some 15#4 ∧
      exec (.ldrBR 1 2 ⟨15, .right, 3⟩) State.reset = .fault (.ud 0) :=
  ⟨rfl, rfl⟩

/-- Both rules of #AC: an aligned `.W` under four_byte, a misaligned one under natural. -/
theorem witness_MisalignedAddressRaisesAc :
    accessOf (startWith four 0 [(4, 0x2000)]) (.ldrW 1 4 6) = some (0x2006, 2) ∧ ¬ NoAc four 0x2006 2 ∧
      accessOf (startWith natural 0 [(4, 0x2000)]) (.strWR 1 4 ⟨0, .left, 0⟩) = some (0x2000, 2) ∧
      accessOf (startWith natural 0 [(4, 0x2000)]) (.strD 1 4 2) = some (0x2002, 4) ∧ ¬ NoAc natural 0x2002 4 := by
  decide

/-- Misaligned without #AC; aligned with its last byte outside MEM_DOMAIN. -/
theorem witness_MisplacedAccessRefused :
    accessOf (start 0 [(4, 0x2000)]) (.ldrW 1 4 1) = some (0x2001, 2) ∧ NoAc Config.default 0x2001 2 ∧
      (0x2001#32 : Word).toNat % 2 ≠ 0 ∧
      accessOf (startWith small 0 [(4, 0x2000)]) (.strD 1 4 0) = some (0x2000, 4) ∧ NoAc small 0x2000 4 ∧
      (0x2000#32 : Word).toNat % 4 = 0 ∧ ¬ BytesInDomain small 0x2000 4 ∧ BytesInDomain small 0x2000 2 := by
  decide

/-- Both faults; and under a supplied entry a next state of each kind: #UD, #AC, and an instruction that raises
nothing. -/
theorem witness_OnlyUdAndAcRaised :
    exec (.cmpR 1 ⟨15, .left, 0⟩) State.reset = .fault (.ud 0) ∧
      exec (.ldrB 1 0 3) (State.resetWith four) = .fault (.ac 3 0) ∧
      (State.resetWith supplied).config.trapEntry = .supplied 0 ∧
      (∃ t, exec (.cmpR 1 ⟨15, .left, 0⟩) (State.resetWith supplied) = .next t) ∧
      (∃ t, exec (.add 1 2 3) (State.resetWith supplied) = .next t) ∧
      ∃ t, exec (.ldrB 1 0 3) (State.resetWith { four with trapEntry := .supplied 7 }) = .next t :=
  ⟨rfl, rfl, rfl, exec_of_completes (by decide), exec_of_completes (by decide), exec_of_completes (by decide)⟩

theorem witness_DefaultEntryIsFault : State.reset.config.trapEntry = .fault := rfl

theorem witness_SuppliedEntryConstraints : (State.resetWith supplied).config.trapEntry = .supplied 0 := rfl

/-- Each size of the immediate form, at the last addresses of the space and at the first. -/
theorem witness_LoadImmediateResult :
    AccessOk (start 0 [(4, 0xFFFFFFF0)]) ((start 0 [(4, 0xFFFFFFF0)]).addrImm 4 15) 1 ∧
      AccessOk (start 0 [(4, 0xFFFFFFF0)]) ((start 0 [(4, 0xFFFFFFF0)]).addrImm 4 14) 2 ∧
      AccessOk (start 0 [(4, 0xFFFFFFF0)]) ((start 0 [(4, 0xFFFFFFF0)]).addrImm 4 12) 4 ∧
      AccessOk State.reset (State.reset.addrImm 0 0) 4 := by
  decide

/-- Each size of the register form, with #AC enabled. -/
theorem witness_LoadRegisterResult :
    AccessOk (startWith natural 0 [(4, 0x2000), (14, 3)])
        ((startWith natural 0 [(4, 0x2000), (14, 3)]).addrReg 4 ⟨14, .left, 0⟩) 1 ∧
      AccessOk (startWith natural 0 [(4, 0x2000), (14, 3)])
        ((startWith natural 0 [(4, 0x2000), (14, 3)]).addrReg 4 ⟨14, .left, 1⟩) 2 ∧
      AccessOk (startWith four 0 [(4, 0x2000), (14, 3)])
        ((startWith four 0 [(4, 0x2000), (14, 3)]).addrReg 4 ⟨14, .left, 2⟩) 4 := by
  decide

/-- The stores ask for the canonical form too. -/
theorem witness_StoreImmediateResult :
    Memory.wf (start 0x00100005 [(4, 0xFFFFFFF0)]).mem = true ∧
      AccessOk (start 0x00100005 [(4, 0xFFFFFFF0)]) ((start 0x00100005 [(4, 0xFFFFFFF0)]).addrImm 4 15) 1 ∧
      AccessOk (start 0x00100005 [(4, 0xFFFFFFF0)]) ((start 0x00100005 [(4, 0xFFFFFFF0)]).addrImm 4 14) 2 ∧
      AccessOk (start 0x00100005 [(4, 0xFFFFFFF0)]) ((start 0x00100005 [(4, 0xFFFFFFF0)]).addrImm 4 12) 4 := by
  decide

/-- The stores ask for the canonical form too. -/
theorem witness_StoreRegisterResult :
    Memory.wf (start 0x00100005 [(4, 0x2000)]).mem = true ∧ (14#4 : RegNum) ≠ 15#4 ∧
      AccessOk (start 0x00100005 [(4, 0x2000)]) ((start 0x00100005 [(4, 0x2000)]).addrReg 4 ⟨14, .left, 0⟩) 1 ∧
      AccessOk (start 0x00100005 [(4, 0x2000)]) ((start 0x00100005 [(4, 0x2000)]).addrReg 4 ⟨14, .left, 0⟩) 2 ∧
      AccessOk (start 0x00100005 [(4, 0x2000)]) ((start 0x00100005 [(4, 0x2000)]).addrReg 4 ⟨14, .left, 0⟩) 4 := by
  decide

theorem witness_PcReadsOwnAddress :
    Memory.wf State.reset.mem = true ∧ AccessOk State.reset (State.reset.addrImm 0 0x3FFF) 1 ∧
      AccessOk State.reset (State.reset.addrImm 0 0x3FFE) 2 ∧ AccessOk State.reset (State.reset.addrImm 0 0x3FFC) 4 := by
  decide

/-- The register forms of STR. -/
theorem witness_PcReadsOwnAddress_register :
    Memory.wf (start 0 [(14, 3)]).mem = true ∧ (14#4 : RegNum) ≠ 15#4 ∧
      AccessOk (start 0 [(14, 3)]) ((start 0 [(14, 3)]).addrReg 0 ⟨14, .left, 0⟩) 1 ∧
      AccessOk (start 0 [(14, 3)]) ((start 0 [(14, 3)]).addrReg 0 ⟨14, .left, 1⟩) 2 ∧
      AccessOk (start 0 [(14, 3)]) ((start 0 [(14, 3)]).addrReg 0 ⟨14, .left, 2⟩) 4 := by
  decide

/-- The register forms: any Rn but 15. -/
theorem witness_shifted : (⟨14, .left, 0⟩ : ShiftedReg).rn ≠ 15#4 ∧ (⟨0, .rotateRight, 15⟩ : ShiftedReg).rn ≠ 15#4 := by
  decide

/-- Both placements, and an immediate with bit 15 set. -/
theorem witness_MovtImmediateIsRaw :
    decodeWord Config.default 0x01F0FFFF = .instr (.movt 15 0xFFFF) ∧
      decodeWord high 0x04001234 = .instr (.movt 0 0x1234) := by
  decide

theorem witness_MovToMcrResult :
    ((start 0 [(0, 0xFFFFFFFF)]).x 0).getLsbD 14 = true ∧ ((start 0 [(0, 0xFFFFBFFF)]).x 0).getLsbD 14 = false := by
  decide

theorem witness_ReservedBanksRefused : 2 ≤ (2#4 : RegNum).toNat ∧ 2 ≤ (15#4 : RegNum).toNat := by decide

theorem witness_CarryChainsTwoWords :
    (4#4 : RegNum) ≠ 15#4 ∧ (5#4 : RegNum) ≠ 15#4 ∧ (2#4 : RegNum) ≠ 15#4 ∧ (3#4 : RegNum) ≠ 15#4 ∧
      (1#4 : RegNum) ≠ 15#4 ∧ (4#4 : RegNum) ≠ 5#4 ∧ (4#4 : RegNum) ≠ 1#4 ∧ (4#4 : RegNum) ≠ 3#4 := by
  decide

theorem witness_ShifterMovesBits : 0 < 32 ∧ 31 < 32 := by decide

theorem witness_SharedAndBankedRegisters : (7#4 : RegNum).toNat < 8 ∧ ¬ (8#4 : RegNum).toNat < 8 := by decide

/-- A store: the invariant, a next state, debug mode off, and an address newly stored to. -/
theorem witness_step :
    (start 0x09048000 [(4, 0x2000), (0, 6)]).Inv ∧ (start 0x09048000 [(4, 0x2000), (0, 6)]).mcr.dbg = false ∧
      (∃ t, step (start 0x09048000 [(4, 0x2000), (0, 6)]) = .next t) ∧
      after (start 0x09048000 [(4, 0x2000), (0, 6)]) (fun t => decide (0x2000 ∈ t.stored)) = some true ∧
      0x2000 ∉ (start 0x09048000 [(4, 0x2000), (0, 6)]).stored := by
  exact ⟨by decide, by decide, step_of_goesOn (by decide), by decide, by decide⟩

theorem witness_OnlyStoresChangeMemory :
    (Instr.ldrD 1 4 0).isStore = false ∧ ∃ t, exec (.ldrD 1 4 0) State.reset = .next t :=
  ⟨rfl, exec_of_completes (by decide)⟩

/-- Both modes. -/
theorem witness_OtherBankUntouched :
    State.reset.config.trapEntry = .fault ∧ State.reset.mode = .supervisor ∧
      (State.reset.setMcr (mcrOfWord 0)).config.trapEntry = .fault ∧ (State.reset.setMcr (mcrOfWord 0)).mode = .irq ∧
      (∀ rd rm b, Instr.add 8 8 1 ≠ .movToBank rd rm b) ∧ (∀ rd rm b, Instr.add 8 8 1 ≠ .movFromBank rd rm b) ∧
      (∃ t, exec (.add 8 8 1) State.reset = .next t) ∧
      ∃ t, exec (.add 8 8 1) (State.reset.setMcr (mcrOfWord 0)) = .next t :=
  ⟨rfl, rfl, rfl, rfl, fun _ _ _ h => (by cases h), fun _ _ _ h => (by cases h), exec_of_completes (by decide),
    exec_of_completes (by decide)⟩

/-- The write of MCR itself, which may change no flag. -/
theorem witness_FlagsChangeOnlyByAlu :
    State.reset.config.trapEntry = .fault ∧ (Instr.movToBank 1 0 .bank3).isAlu = false ∧
      (∀ rm, Instr.movToBank 1 0 .bank3 ≠ .movToBank 0#4 rm .bank3) ∧
      ∃ t, exec (.movToBank 1 0 .bank3) State.reset = .next t :=
  ⟨rfl, rfl, fun _ h => (by cases h), exec_of_completes (by decide)⟩

/-- The write of FLAGS, which may not change MCR. -/
theorem witness_McrChangesOnlyByMove :
    State.reset.config.trapEntry = .fault ∧ (∀ rm, Instr.movToBank 0 0 .bank3 ≠ .movToBank 1#4 rm .bank3) ∧
      ∃ t, exec (.movToBank 0 0 .bank3) State.reset = .next t :=
  ⟨rfl, fun _ h => (by cases h), exec_of_completes (by decide)⟩

/-- At the last word of the address space, the banked MOV of number 15 in Bank 3 not being met. -/
theorem witness_SequentialUnlessPcWritten :
    State.reset.config.trapEntry = .fault ∧ writesPc (.ldrD 14 4 0) = false ∧
      writesPc (.movToBank 14 0 .interrupt) = false ∧
      (∃ t, exec (.movToBank 14 0 .interrupt) { State.reset with pc := 0xFFFFFFFC } = .next t) ∧
      writesPc (.movToBank 15 0 .interrupt) = true :=
  ⟨rfl, rfl, rfl, exec_of_completes (by decide), rfl⟩

theorem witness_FlagsSelectNothing :
    State.reset.config.trapEntry = .fault ∧ readsFlags (.add 1 2 3) = false ∧
      readsFlags (.movFromBank 1 1 .bank3) = false ∧ readsFlags (.movFromBank 1 0 .bank3) = true := by
  decide

/-- A byte stored inside a word is what a read of the word finds there (R67, R77; 95_test_vectors.md, P2). -/
theorem test_overlapping_write :
    ((State.reset.memWrite 0x2000 4 0x12345678).memWrite 0x2001 1 0xFF).memRead 0x2000 4 = 0x1234FF78 ∧
      (((State.resetWith { Config.default with byteOrder := .big }).memWrite 0x2000 4 0x12345678).memWrite 0x2001 1
        0xFF).memRead 0x2000 4 = 0x12FF5678 := by
  decide

/-- A byte just above and a word just below the bytes written; the first and the last byte written, the byte after. -/
theorem witness_MemoryReadsLastWrite :
    Memory.wf State.reset.mem = true ∧ 0 < bytesOf .w ∧ 1 < bytesOf .w ∧
      (∀ k, k < bytesOf .w → 0x2002 ≠ (0x2000#32 + BitVec.ofNat 32 k).toNat) ∧
      (∀ j k, j < bytesOf .b → k < bytesOf .w → 0x2002#32 + BitVec.ofNat 32 j ≠ 0x2000#32 + BitVec.ofNat 32 k) ∧
      ∀ j k, j < bytesOf .d → k < bytesOf .w → 0x1FFC#32 + BitVec.ofNat 32 j ≠ 0x2000#32 + BitVec.ofNat 32 k := by
  refine ⟨by decide, by decide, by decide, by decide, ?_, ?_⟩ <;> intro j k hj hk <;> simp only [bytesOf] at hj hk <;> interval_cases j <;>
    interval_cases k <;> decide

end Sys2Proof.Tests
end

/-! The MOVT immediate (R101). What a word that decodes to an instruction says about its row and its fields, and the
upper half of the register that MOVT writes. -/

namespace Sys2Proof

/-- A word decodes to an instruction only by the fields of an assigned row (R108, R115). -/
theorem decodeFields_of_decodeWord {c : Config} {w : Word} {i : Instr} (h : decodeWord c w = .instr i) :
    ∃ op, opOfCode8 c.opcodePlacement (opcodeField w) = some op ∧ decodeFields c op w = .instr i := by
  unfold decodeWord at h
  split at h
  next => unfold decodeUnassigned at h; split at h <;> cases h
  next op hop =>
    split at h
    · cases h
    · exact ⟨op, hop, h⟩

/-- A load or store read in M format has a named size (R102). -/
theorem eq_of_decodeM {c : Config} {f : Size → RegNum → RegNum → BitVec 14 → Instr} {w : Word} {i : Instr}
    (h : decodeM c f w = .instr i) :
    ∃ z, c.sizeCode.sizeOf (sizeFieldM w) = some z ∧ i = f z (rdField w) (rmField w) (imm14Field w) := by
  unfold decodeM at h
  split at h
  next z hz => cases h; exact ⟨z, hz, rfl⟩
  next => cases h

/-- A load or store read in R format has a named size (R102, R195). -/
theorem eq_of_decodeMR {c : Config} {f : Size → RegNum → RegNum → ShiftedReg → Instr} {w : Word} {i : Instr}
    (h : decodeMR c f w = .instr i) :
    ∃ z, c.sizeCode.sizeOf (sizeFieldR w) = some z ∧ i = f z (rdField w) (rmField w) (shiftedField w) := by
  unfold decodeMR at h
  split at h
  next z hz => cases h; exact ⟨z, hz, rfl⟩
  next => split at h <;> cases h

/-- Only the MOVT row reads as MOVT, with Rd and the immediate of the I format (R92, R108). -/
theorem eq_of_decodeFields_movt {c : Config} {op : Op} {w : Word} {rd : RegNum} {imm : BitVec 16}
    (h : decodeFields c op w = .instr (.movt rd imm)) : op = .movt ∧ rd = rdField w ∧ imm = imm16Field w := by
  cases op
  case movt => cases h; exact ⟨rfl, rfl, rfl⟩
  case ldrI => obtain ⟨z, -, hz⟩ := eq_of_decodeM h; cases z <;> cases hz
  case strI => obtain ⟨z, -, hz⟩ := eq_of_decodeM h; cases z <;> cases hz
  case ldrR => obtain ⟨z, -, hz⟩ := eq_of_decodeMR h; cases z <;> cases hz
  case strR => obtain ⟨z, -, hz⟩ := eq_of_decodeMR h; cases z <;> cases hz
  all_goals cases h

/-- The immediate of the I format is the word's lower half (R92). -/
theorem toNat_imm16Field (w : Word) : (imm16Field w).toNat = w.toNat % 2 ^ 16 := by
  simp [imm16Field]

end Sys2Proof

namespace Sys2Proof.Machine

/-- The 16-bit field put above another is the upper half of the word. -/
theorem toNat_append_div (hi lo : BitVec 16) : (hi ++ lo : Word).toNat / 2 ^ 16 = hi.toNat := by
  have hlo := lo.isLt
  rw [BitVec.toNat_append, ← Nat.shiftLeft_add_eq_or_of_lt hlo, Nat.shiftLeft_eq]
  omega

/-- MOVT ends by writing its immediate above the lower half of Rd (R101, R140). -/
theorem exec_movt (rd : RegNum) (imm : BitVec 16) (s : State) :
    exec (.movt rd imm) s = .next (s.writeBack rd (imm ++ (s.x rd).extractLsb' 0 16)) := rfl

/-- Rd reads back what an instruction's end wrote to it, Rd = pc included (R29). -/
theorem State.get_writeBack_self (s : State) (rd : RegNum) (v : Word) :
    (s.writeBack rd v).get (regOf s.mode rd) = v := by
  rw [State.get_writeBack, if_pos rfl]

end Sys2Proof.Machine

namespace Sys2Proof.Claims

open Sys2Proof.Machine

/-- Settles O21: MOVT writes back the immediate put above Rd's lower half, and only the MOVT row, whose immediate is
inst[15:0], decodes to it. -/
theorem movtImmediateIsRaw : Obligations.MovtImmediateIsRaw := by
  constructor
  · intro s rd imm
    exact ⟨_, exec_movt rd imm s, by rw [State.get_writeBack_self, toNat_append_div]⟩
  · intro c w rd imm h
    obtain ⟨op, -, hop⟩ := decodeFields_of_decodeWord h
    obtain ⟨-, -, rfl⟩ := eq_of_decodeFields_movt hop
    exact toNat_imm16Field w

end Sys2Proof.Claims

/-! Rn = pc (R105, R190). Every instruction either goes through `sh(Rn)`, where the pc raises #UD, or has no Rn operand;
what it does beyond `sh(Rn)` raises no #UD. -/

namespace Sys2Proof.Machine

/-- The outcome is no #UD fault. -/
def NoUd (r : Result) : Prop := ∀ p, r ≠ .fault (.ud p)

/-- A next state is no #UD. -/
theorem noUd_next (t : State) : NoUd (.next t) := fun _ h => by cases h

/-- A refusal is no #UD. -/
theorem noUd_refused (r : Refusal) : NoUd (.refused r) := fun _ h => by cases h

/-- #AC is no #UD, whichever way the raise is answered (R196). -/
theorem noUd_takeException_ac (s : State) (a : Word) : NoUd (takeException s (.ac a)) := fun _ h => by
  cases eq_faultOf_of_takeException h

/-- A load's or a store's access completes, raises #AC or is refused. -/
theorem noUd_withAccess (s : State) (a : Word) (n : Nat) (t : State) : NoUd (withAccess s a n t) := by
  rcases withAccess_cases s a n t with ⟨-, h⟩ | ⟨-, h⟩ | ⟨r, h⟩ <;> rw [h]
  · exact noUd_next t
  · exact noUd_takeException_ac s a
  · exact noUd_refused r

/-- The banked source MOV completes or is refused (R143). -/
theorem noUd_execMovFromBank (s : State) (rd rm : RegNum) (b : BankSel) : NoUd (execMovFromBank rd rm b s) := by
  unfold execMovFromBank
  split
  · exact noUd_next _
  · exact noUd_refused _

/-- A banked write completes or is refused (R144, R210). -/
theorem noUd_writeBanked (s : State) (g : BankedReg) (v : Word) : NoUd (writeBanked g v s) := by
  cases g with
  | reg p => exact noUd_next _
  | flags => exact noUd_next _
  | mcr =>
    simp only [writeBanked]
    split
    · exact noUd_refused _
    · exact noUd_next _

/-- The banked destination MOV completes or is refused (R144). -/
theorem noUd_execMovToBank (s : State) (rd rm : RegNum) (b : BankSel) : NoUd (execMovToBank rd rm b s) := by
  unfold execMovToBank
  split
  · exact noUd_writeBanked s _ _
  · exact noUd_refused _

/-- The instruction begins with `sh(Rn)` of its Rn operand and goes on without a #UD (R105). -/
def TakesShifted (i : Instr) (s : State) : Prop :=
  ∃ op k, i.rn = some op.rn ∧ exec i s = withShifted s op k ∧ ∀ v, NoUd (k v)

/-- An instruction has an Rn operand and begins with its `sh(Rn)`, or it has none and raises no #UD (R105). -/
theorem takesShifted_or_noUd (i : Instr) (s : State) : TakesShifted i s ∨ (i.rn = none ∧ NoUd (exec i s)) := by
  cases i with
  | ldrB | ldrW | ldrD | strB | strW | strD => exact .inr ⟨rfl, noUd_withAccess _ _ _ _⟩
  | ldrBR | ldrWR | ldrDR | strBR | strWR | strDR => exact .inl ⟨_, _, rfl, rfl, fun _ => noUd_withAccess _ _ _ _⟩
  | movFromBank rd rm b => exact .inr ⟨rfl, noUd_execMovFromBank s rd rm b⟩
  | movToBank rd rm b => exact .inr ⟨rfl, noUd_execMovToBank s rd rm b⟩
  | movt | mov | add | addc | sub | subc | and | bic | or | xor | cmp | tst => exact .inr ⟨rfl, noUd_next _⟩
  | movR | addR | addcR | subR | subcR | andR | bicR | orR | xorR | cmpR | tstR =>
    exact .inl ⟨_, _, rfl, rfl, fun _ => noUd_next _⟩
  | bc | bcl | int => exact .inr ⟨rfl, noUd_refused _⟩

end Sys2Proof.Machine

namespace Sys2Proof.Claims

open Sys2Proof.Machine

/-- Settles O11: where Rn is an operand, `sh(Rn)` comes first and is the one source of #UD; elsewhere there is none. -/
theorem pcAsRnRaisesUd : Obligations.PcAsRnRaisesUd := by
  intro i s
  rcases takesShifted_or_noUd i s with ⟨op, k, hrn, hexec, hk⟩ | ⟨hrn, hud⟩
  · rw [hrn, hexec]
    constructor
    · intro h15
      exact withShifted_pc (Option.some.inj h15) k
    · intro p hp
      by_contra hne
      rw [withShifted_ne fun h => hne (congrArg some h)] at hp
      exact hk _ p hp
  · rw [hrn]
    exact ⟨nofun, fun p hp => absurd hp (hud p)⟩

end Sys2Proof.Claims

/-! The two round trips of the encoding (R91 to R115). -/

namespace Sys2Proof

/-- A word of an assigned row with no unread bit set decodes to what its fields say, under either policy (R111). -/
theorem decodeWord_of_row {c : Config} {op : Op} {w : Word} (hop : opcodeField w = op.code8 c.opcodePlacement)
    (hmask : w &&& op.unusedMask = 0#32) : decodeWord c w = decodeFields c op w := by
  simp [decodeWord, hop, hmask]

/-- An I-format word reads back, where its unread fields are zero (R92). -/
theorem decodes_encodeI {c : Config} {op : Op} {rd rm : RegNum} {imm : BitVec 16} {i : Instr}
    (hmask : iWord (op.code8 c.opcodePlacement) rd rm imm &&& op.unusedMask = 0#32)
    (hi : decodeFields c op (iWord (op.code8 c.opcodePlacement) rd rm imm) = .instr i) :
    ∃ w, encodeI c op rd rm imm = some w ∧ decodeWord c w = .instr i :=
  ⟨_, rfl, (decodeWord_of_row (opcodeField_iWord ..) hmask).trans hi⟩

/-- An R-format word with `sh(Rn)` reads back, where its unread fields are zero (R93, R103). -/
theorem decodes_encodeR {c : Config} {op : Op} {rd rm : RegNum} {s : ShiftedReg} {i : Instr}
    (hmask : rWord (op.code8 c.opcodePlacement) rd rm s.rn 0#4 s.amt s.dir.code 0#2 &&& op.unusedMask = 0#32)
    (hi : decodeFields c op (rWord (op.code8 c.opcodePlacement) rd rm s.rn 0#4 s.amt s.dir.code 0#2) = .instr i) :
    ∃ w, encodeR c op rd rm s = some w ∧ decodeWord c w = .instr i :=
  ⟨_, rfl, (decodeWord_of_row (opcodeField_rWord ..) hmask).trans hi⟩

/-- A banked MOV reads back (R106). -/
theorem decodes_encodeBank {c : Config} {op : Op} {rd rm : RegNum} {b : BankSel} {i : Instr}
    (hmask : rWord (op.code8 c.opcodePlacement) rd rm 0#4 0#4 0#4 0#2 b.code &&& op.unusedMask = 0#32)
    (hi : decodeFields c op (rWord (op.code8 c.opcodePlacement) rd rm 0#4 0#4 0#4 0#2 b.code) = .instr i) :
    ∃ w, encodeBank c op rd rm b = some w ∧ decodeWord c w = .instr i :=
  ⟨_, rfl, (decodeWord_of_row (opcodeField_rWord ..) hmask).trans hi⟩

/-- A load or store in M format reads back, where its size has a code (R94, R102). -/
theorem decodes_encodeM {c : Config} {op : Op} {f : Size → RegNum → RegNum → BitVec 14 → Instr} {z : Size}
    {rd rm : RegNum} {imm : BitVec 14} (hz : (c.sizeCode.codeOf z).isSome) (hmask : op.unusedMask = 0#32)
    (hop : ∀ w, decodeFields c op w = decodeM c f w) :
    ∃ w, encodeM c op z rd rm imm = some w ∧ decodeWord c w = .instr (f z rd rm imm) := by
  obtain ⟨k, hk⟩ := Option.isSome_iff_exists.1 hz
  refine ⟨mWord (op.code8 c.opcodePlacement) rd rm k imm, by simp [encodeM, hk], ?_⟩
  rw [decodeWord_of_row (opcodeField_mWord ..) (by simp [hmask]), hop]
  simp [decodeM, sizeOf_of_codeOf hk]

/-- A load or store in R format reads back, where its size has a code (R93, R102). -/
theorem decodes_encodeMR {c : Config} {op : Op} {f : Size → RegNum → RegNum → ShiftedReg → Instr} {z : Size}
    {rd rm : RegNum} {s : ShiftedReg} (hz : (c.sizeCode.codeOf z).isSome) (hmask : op.unusedMask = 0x00000C03#32)
    (hop : ∀ w, decodeFields c op w = decodeMR c f w) :
    ∃ w, encodeMR c op z rd rm s = some w ∧ decodeWord c w = .instr (f z rd rm s) := by
  obtain ⟨k, hk⟩ := Option.isSome_iff_exists.1 hz
  refine ⟨rWord (op.code8 c.opcodePlacement) rd rm s.rn (0#2 ++ k) s.amt s.dir.code 0#2, by simp [encodeMR, hk], ?_⟩
  rw [decodeWord_of_row (opcodeField_rWord ..) (hmask ▸ rWord_no_funcHigh_bank ..), hop]
  simp [decodeMR, shiftedField, sizeOf_of_codeOf hk]

/-- A well-formed instruction's access size has a code (R102). -/
theorem isSome_codeOf_of_wellFormed {c : Config} {i : Instr} {z : Size} (h : i.wellFormed c = true)
    (hz : i.accessSize = some z) : (c.sizeCode.codeOf z).isSome := by
  simp only [Instr.wellFormed, Bool.and_eq_true, Instr.sizeHasCode, hz] at h
  exact h.2

end Sys2Proof

namespace Sys2Proof.Claims

/-- Settles O2: each format's word has its row's opcode and zeros in the unread fields, and its fields read back. -/
theorem decodeEncodeAgree : Obligations.DecodeEncodeAgree := by
  intro c i hwf
  have sized {z : Size} (hz : i.accessSize = some z) := isSome_codeOf_of_wellFormed hwf hz
  cases i with
  | ldrB | ldrW | ldrD => exact decodes_encodeM (f := ldrOf) (sized rfl) rfl fun _ => rfl
  | strB | strW | strD => exact decodes_encodeM (f := strOf) (sized rfl) rfl fun _ => rfl
  | ldrBR | ldrWR | ldrDR => exact decodes_encodeMR (f := ldrROf) (sized rfl) rfl fun _ => rfl
  | strBR | strWR | strDR => exact decodes_encodeMR (f := strROf) (sized rfl) rfl fun _ => rfl
  | movt | mov => exact decodes_encodeI (iWord_no_rm ..) (by simp [decodeFields])
  | add | addc | sub | subc | and | bic | or | xor => exact decodes_encodeI BitVec.and_zero (by simp [decodeFields])
  | cmp | tst => exact decodes_encodeI (iWord_no_rd ..) (by simp [decodeFields])
  | movR => exact decodes_encodeR (rWord_no_rm_func_bank ..) (by simp [decodeFields, shiftedField])
  | addR | addcR | subR | subcR | andR | bicR | orR | xorR =>
    exact decodes_encodeR (rWord_no_func_bank ..) (by simp [decodeFields, shiftedField])
  | cmpR | tstR => exact decodes_encodeR (rWord_no_rd_func_bank ..) (by simp [decodeFields, shiftedField])
  | movFromBank | movToBank => exact decodes_encodeBank (rWord_no_rn_func_sh_dir ..) (by simp [decodeFields])
  | bc | bcl | int => cases hwf

end Sys2Proof.Claims

namespace Sys2Proof

/-- A word that decodes to an instruction has its row's opcode, its fields, and under the policy refuse no unread bit
(R108, R111, R115). -/
theorem row_of_decodeWord {c : Config} {w : Word} {i : Instr} (h : decodeWord c w = .instr i) :
    ∃ op, op.code8 c.opcodePlacement = opcodeField w ∧ decodeFields c op w = .instr i ∧
      (c.reservedFieldPolicy = .refuse → w &&& op.unusedMask = 0#32) := by
  obtain ⟨op, hop, hi⟩ := decodeFields_of_decodeWord h
  refine ⟨op, code8_of_opOfCode8 _ _ _ hop, hi, fun hpolicy => ?_⟩
  by_contra hmask
  simp [decodeWord, hop, hpolicy, hmask] at h

/-- A field that lies inside a mask is zero in a word with none of the mask's bits. -/
theorem extractLsb'_eq_zero_of_and {w m : Word} {lo n : Nat} (h : w &&& m = 0#32)
    (hm : m.extractLsb' lo n = BitVec.allOnes n) : w.extractLsb' lo n = 0#n := by
  have hfield := congrArg (BitVec.extractLsb' lo n) h
  rwa [BitVec.extractLsb'_and, hm, BitVec.and_allOnes, BitVec.extractLsb'_zero] at hfield

/-- A size that some code names has a code (R102). -/
theorem isSome_codeOf_of_sizeOf {m : SizeCode} {k : BitVec 2} {z : Size} (h : m.sizeOf k = some z) :
    (m.codeOf z).isSome := by
  unfold SizeCode.sizeOf at h
  unfold SizeCode.codeOf
  grind

/-- Where no size is named twice, a size's code is the one that names it (R102). -/
theorem codeOf_of_sizeOf {m : SizeCode} {k : BitVec 2} {z : Size}
    (hinj : ∀ j k z, m.sizeOf j = some z → m.sizeOf k = some z → j = k) (h : m.sizeOf k = some z) :
    m.codeOf z = some k := by
  obtain ⟨j, hj⟩ := Option.isSome_iff_exists.1 (isSome_codeOf_of_sizeOf h)
  rw [hj, hinj j k z (sizeOf_of_codeOf hj) h]

/-- The function field of the R format is two bits above the size code (R93, R102). -/
theorem func_eq_append (w : Word) : w.extractLsb' 8 4 = w.extractLsb' 10 2 ++ sizeFieldR w :=
  (BitVec.extractLsb'_append_extractLsb'_eq_extractLsb' (start₁ := 8) (len₁ := 2) (len₂ := 2) rfl).symm

section Encode
variable {c : Config} {op : Op} {w : Word} (hop : op.code8 c.opcodePlacement = opcodeField w)
include hop

/-- An I-format word is the encoding of its fields (R92). -/
theorem encodeI_fields {rd rm : RegNum} (hrd : rdField w = rd) (hrm : rmField w = rm) :
    encodeI c op rd rm (imm16Field w) = some w := by
  rw [encodeI, hop, ← hrd, ← hrm, iWord_fields]

/-- An R-format word with zeros in func and bank is the encoding of its fields (R93). -/
theorem encodeR_fields {rd rm : RegNum} (hrd : rdField w = rd) (hrm : rmField w = rm)
    (hfunc : w.extractLsb' 8 4 = 0#4) (hbank : bankField w = 0#2) : encodeR c op rd rm (shiftedField w) = some w := by
  conv_rhs => rw [← rWord_fields w, hfunc, hbank, hrd, hrm]
  simp only [encodeR, hop, shiftedField, code_dirOfCode]

/-- A banked MOV's word with zeros in the unread fields is the encoding of its fields (R106). -/
theorem encodeBank_fields (hmask : w &&& 0x0000FFFC#32 = 0#32) :
    encodeBank c op (rdField w) (rmField w) (bankOfCode (bankField w)) = some w := by
  have hrn : rnField w = 0#4 := extractLsb'_eq_zero_of_and hmask (by decide)
  have hfunc : w.extractLsb' 8 4 = 0#4 := extractLsb'_eq_zero_of_and hmask (by decide)
  have hsh : shField w = 0#4 := extractLsb'_eq_zero_of_and hmask (by decide)
  have hdir : dirField w = 0#2 := extractLsb'_eq_zero_of_and hmask (by decide)
  conv_rhs => rw [← rWord_fields w, hrn, hfunc, hsh, hdir]
  simp only [encodeBank, hop, code_bankOfCode]

/-- A load or store in M format is the encoding of its fields (R94, R102). -/
theorem encodeM_fields {z : Size} (hz : c.sizeCode.codeOf z = some (sizeFieldM w)) :
    encodeM c op z (rdField w) (rmField w) (imm14Field w) = some w := by
  rw [encodeM, hz, Option.map_some, hop, mWord_fields]

/-- A load or store in R format with zeros in the unread fields is the encoding of its fields (R93, R102). -/
theorem encodeMR_fields {z : Size} (hz : c.sizeCode.codeOf z = some (sizeFieldR w))
    (hmask : w &&& 0x00000C03#32 = 0#32) :
    encodeMR c op z (rdField w) (rmField w) (shiftedField w) = some w := by
  have hfunc : w.extractLsb' 10 2 = 0#2 := extractLsb'_eq_zero_of_and hmask (by decide)
  have hbank : bankField w = 0#2 := extractLsb'_eq_zero_of_and hmask (by decide)
  conv_rhs => rw [← rWord_fields w, func_eq_append, hfunc, hbank]
  simp only [encodeMR, hz, Option.map_some, hop, shiftedField, code_dirOfCode]

end Encode

end Sys2Proof

namespace Sys2Proof.Claims

/-- Settles O3: a word is made of its fields, and those that its row does not read are zero. -/
theorem encodeDecodeAgree : Obligations.EncodeDecodeAgree := by
  intro c w i hpolicy hinj hdecode
  obtain ⟨op, hop, hi, hmask⟩ := row_of_decodeWord hdecode
  replace hmask := hmask hpolicy
  have zero {lo n : Nat} (hm : op.unusedMask.extractLsb' lo n = BitVec.allOnes n) : w.extractLsb' lo n = 0#n :=
    extractLsb'_eq_zero_of_and hmask hm
  cases op with
  | ldrI | strI =>
    obtain ⟨z, hz, rfl⟩ := eq_of_decodeM hi
    cases z <;> exact encodeM_fields hop (codeOf_of_sizeOf hinj hz)
  | ldrR | strR =>
    obtain ⟨z, hz, rfl⟩ := eq_of_decodeMR hi
    cases z <;> exact encodeMR_fields hop (codeOf_of_sizeOf hinj hz) hmask
  | add | addc | sub | subc | and | bic | or | xor => cases hi; exact encodeI_fields hop rfl rfl
  | movFromBank | movToBank => cases hi; exact encodeBank_fields hop hmask
  | movt | mov => cases hi; exact encodeI_fields hop rfl (zero (by decide))
  | cmp | tst => cases hi; exact encodeI_fields hop (zero (by decide)) rfl
  | addR | addcR | subR | subcR | andR | bicR | orR | xorR =>
    cases hi
    exact encodeR_fields hop rfl rfl (zero (by decide)) (zero (by decide))
  | movR =>
    cases hi
    exact encodeR_fields hop rfl (zero (by decide)) (zero (by decide)) (zero (by decide))
  | cmpR | tstR =>
    cases hi
    exact encodeR_fields hop (zero (by decide)) rfl (zero (by decide)) (zero (by decide))

end Sys2Proof.Claims

/-! What every step keeps: the canonical form, the configuration, debug mode off, the marks of the addresses stored to.
Each is read off `exec_next_cases` and `step_next_cases`. -/

namespace Sys2Proof.Machine

/-- An instruction that writes registers of the current mode touches neither MCR, memory nor the configuration. -/
theorem RegisterEffect.frame {i : Instr} {s t : State} (h : RegisterEffect i s t) :
    t.mcr = s.mcr ∧ t.mem = s.mem ∧ t.stored = s.stored ∧ t.config = s.config := by
  obtain ⟨f, k, -, ⟨rd, v, -, rfl⟩ | ⟨-, -, rfl⟩⟩ := h <;> simp

/-- A store touches neither the flags, MCR nor the configuration. -/
theorem StoreEffect.frame {i : Instr} {s t : State} (h : StoreEffect i s t) :
    t.flags = s.flags ∧ t.mcr = s.mcr ∧ t.config = s.config := by
  obtain ⟨z, rd, a, -, -, -, rfl⟩ := h
  simp

/-- The banked destination MOV touches neither memory nor the configuration. -/
theorem BankEffect.frame {i : Instr} {s t : State} (h : BankEffect i s t) :
    t.mem = s.mem ∧ t.stored = s.stored ∧ t.config = s.config := by
  obtain ⟨rd, rm, ⟨m, -, rfl⟩ | ⟨-, rfl⟩ | ⟨-, -, rfl⟩⟩ := h <;> simp

/-- A supplied entry touches neither memory, the debug fields nor the configuration (R200). -/
theorem TrapEffect.frame {i : Instr} {s t : State} (h : TrapEffect i s t) :
    t.mem = s.mem ∧ t.stored = s.stored ∧ t.mcr.debug = s.mcr.debug ∧ t.config = s.config := by
  obtain ⟨f, -, ⟨-, rfl⟩ | ⟨a, n, -, rfl⟩⟩ := h <;> exact ⟨rfl, rfl, rfl, rfl⟩

/-- An instruction leaves memory and the marks alone, or it is a store (R72). -/
theorem exec_next_memory {i : Instr} {s t : State} (h : exec i s = .next t) :
    (t.mem = s.mem ∧ t.stored = s.stored) ∨ StoreEffect i s t := by
  obtain h | h | h | h := exec_next_cases h
  · obtain ⟨-, hmem, hstored, -⟩ := h.frame
    exact .inl ⟨hmem, hstored⟩
  · exact .inr h
  · obtain ⟨hmem, hstored, -⟩ := h.frame
    exact .inl ⟨hmem, hstored⟩
  · obtain ⟨hmem, hstored, -⟩ := h.frame
    exact .inl ⟨hmem, hstored⟩

/-- A step leaves memory and the marks alone, or it runs a store (R72). -/
theorem step_next_memory {s t : State} (h : step s = .next t) :
    (t.mem = s.mem ∧ t.stored = s.stored) ∨
      ∃ i k, (k = 0 ∨ k = 1) ∧ exec i (s.skipDraws k) = .next t ∧ StoreEffect i (s.skipDraws k) t := by
  obtain ⟨i, k, hk, hexec⟩ | ⟨f, k, -, -, rfl⟩ | ⟨f, n, -, rfl⟩ := step_next_cases h
  · exact (exec_next_memory hexec).imp id fun hstore => ⟨i, k, hk, hexec, hstore⟩
  · exact .inl ⟨rfl, rfl⟩
  · exact .inl ⟨rfl, rfl⟩

/-- The addresses marked after a store: those marked before and the bytes of its access (R79). -/
theorem StoreEffect.mem_stored {i : Instr} {s t : State} (h : StoreEffect i s t) :
    ∃ a n, i.isStore = true ∧ accessOf s i = some (a, n) ∧
      ∀ x, x ∈ t.stored ↔ x ∈ s.stored ∨ ∃ k, k < n ∧ x = (a + BitVec.ofNat 32 k).toNat := by
  obtain ⟨z, rd, a, hi, ha, -, rfl⟩ := h
  exact ⟨a, _, hi, ha, mem_markStored s.stored a _⟩

/-- A store keeps the canonical form of memory and of the marks. -/
theorem StoreEffect.inv {i : Instr} {s t : State} (h : StoreEffect i s t) (hs : s.Inv) : t.Inv := by
  obtain ⟨z, rd, a, -, -, -, rfl⟩ := h
  exact ⟨wf_writeBytes hs.1 a _, addrsFrom_markStored hs.2 a _⟩

/-- No instruction changes the configuration (R45). -/
theorem exec_config {i : Instr} {s t : State} (h : exec i s = .next t) : t.config = s.config := by
  obtain h | h | h | h := exec_next_cases h
  · obtain ⟨-, -, -, hconfig⟩ := h.frame
    exact hconfig
  · obtain ⟨-, -, hconfig⟩ := h.frame
    exact hconfig
  · obtain ⟨-, -, hconfig⟩ := h.frame
    exact hconfig
  · obtain ⟨-, -, -, hconfig⟩ := h.frame
    exact hconfig

/-- MCR.DBG after a write of MCR is bit 14 of the value written (R41, R43). -/
theorem dbg_mcrOfWord (v : Word) : (mcrOfWord v).dbg = v.getLsbD 14 := by
  simp [Mcr.dbg, mcrOfWord]

/-- No instruction sets MCR.DBG (R210). -/
theorem exec_keeps_dbg_clear {i : Instr} {s t : State} (hs : s.mcr.dbg = false) (h : exec i s = .next t) :
    t.mcr.dbg = false := by
  obtain h | h | ⟨rd, rm, h⟩ | h := exec_next_cases h
  · obtain ⟨hmcr, -⟩ := h.frame
    rwa [hmcr]
  · obtain ⟨-, hmcr, -⟩ := h.frame
    rwa [hmcr]
  · obtain ⟨m, -, rfl⟩ | ⟨-, rfl⟩ | ⟨-, h14, rfl⟩ := h
    · simpa using hs
    · simpa using hs
    · simpa [dbg_mcrOfWord] using h14
  · obtain ⟨-, -, hdebug, -⟩ := h.frame
    rwa [Mcr.dbg, hdebug]

end Sys2Proof.Machine

namespace Sys2Proof.Claims

open Sys2Proof.Machine

/-- Settles O49: only a store touches memory or the marks, and it keeps their form. -/
theorem stepKeepsInvariant : Obligations.StepKeepsInvariant := by
  intro s t hinv h
  obtain ⟨hmem, hstored⟩ | ⟨i, k, -, -, hstore⟩ := step_next_memory h
  · rwa [State.Inv, hmem, hstored]
  · exact hstore.inv hinv

/-- Settles O50: neither an instruction nor an exception's entry changes it. -/
theorem stepKeepsConfiguration : Obligations.StepKeepsConfiguration := by
  intro s t h
  obtain ⟨i, k, -, hexec⟩ | ⟨f, k, -, -, rfl⟩ | ⟨f, n, -, rfl⟩ := step_next_cases h
  · exact exec_config (s := s.skipDraws k) hexec
  · rfl
  · rfl

/-- Settles O51: an instruction's write of MCR.DBG is refused, and an entry keeps the debug fields. -/
theorem debugModeStaysOff : Obligations.DebugModeStaysOff := by
  intro s t hdbg h
  obtain ⟨i, k, -, hexec⟩ | ⟨f, k, -, -, rfl⟩ | ⟨f, n, -, rfl⟩ := step_next_cases h
  · exact exec_keeps_dbg_clear (s := s.skipDraws k) hdbg hexec
  · exact hdbg
  · exact hdbg

/-- Settles O52: a store adds the bytes of its access to the marks; nothing else touches them. -/
theorem storedAddressesOnlyGrow : Obligations.StoredAddressesOnlyGrow := by
  intro s t h
  obtain ⟨-, hstored⟩ | ⟨i, k, hk, hexec, hstore⟩ := step_next_memory h
  · rw [hstored]
    exact ⟨fun _ ha => ha, fun a ha hna => absurd ha hna⟩
  · obtain ⟨b, n, hi, haccess, hmarks⟩ := hstore.mem_stored
    refine ⟨fun a ha => (hmarks a).2 (.inl ha), fun a ha hna => ?_⟩
    obtain ⟨j, hj, rfl⟩ := ((hmarks a).1 ha).resolve_left hna
    exact ⟨i, b, n, j, s.skipDraws k, hi, hk.imp (by rintro rfl; rfl) (by rintro rfl; rfl), hexec, haccess, hj, rfl⟩

/-- Settles O53: an instruction that leaves memory or the marks changed is a store. -/
theorem onlyStoresChangeMemory : Obligations.OnlyStoresChangeMemory := by
  intro i s t hi h
  obtain ⟨hmem, hstored⟩ | ⟨z, rd, a, hstore, -⟩ := exec_next_memory h
  · exact ⟨fun a => by rw [hmem], hstored⟩
  · rw [hi] at hstore
    cases hstore

end Sys2Proof.Claims

/-! The rest of the encoding (R91 to R115): the fields a row reads, where they stand in the word, and the words that
decode to no instruction. -/

namespace Sys2Proof

/-! Fields as numbers (R91 to R94). -/

/-- A field as a number: the word shifted down to it, modulo its width. -/
theorem toNat_field (w : Word) (lo n : Nat) : (w.extractLsb' lo n).toNat = w.toNat / 2 ^ lo % 2 ^ n := by
  rw [BitVec.extractLsb'_toNat, Nat.shiftRight_eq_div_pow]

/-- The opcode field is the word's top byte (R91). -/
theorem toNat_opcodeField (w : Word) : (opcodeField w).toNat = w.toNat / 2 ^ 24 := by
  have hw := w.isLt
  rw [opcodeField, toNat_field]
  omega

/-- A row's opcode as a number, in either placement (R96). -/
theorem toNat_code8 (p : OpcodePlacement) (op : Op) : (op.code8 p).toNat = Claims.placed p op.code6.toNat := by
  cases p <;> cases op <;> rfl

/-- A row's opcode field as a number. -/
theorem top_byte_of_row {p : OpcodePlacement} {op : Op} {w : Word} (h : op.code8 p = opcodeField w) :
    w.toNat / 2 ^ 24 = Claims.placed p op.code6.toNat := by
  rw [← toNat_opcodeField, ← h, toNat_code8]

/-- A word whose top byte is a row's opcode belongs to the row (R96, R108). -/
theorem opcodeField_of_top_byte {p : OpcodePlacement} {op : Op} {w : Word}
    (h : w.toNat / 2 ^ 24 = Claims.placed p op.code6.toNat) : opcodeField w = op.code8 p :=
  BitVec.eq_of_toNat_eq (by rw [toNat_opcodeField, toNat_code8, h])

/-- The 6-bit opcode of every row is an assigned one (R108). -/
theorem code6_mem_assigned (op : Op) : op.code6.toNat ∈ Claims.assigned := by
  cases op <;> decide

/-! Fields that a row does not read (R111). -/

/-- No bit of the field of `n` bits from bit `lo` on is one that the row does not read (R111). -/
abbrev Op.Reads (op : Op) (lo n : Nat) : Prop := (~~~op.unusedMask).extractLsb' lo n = BitVec.allOnes n

/-- The two words differ only in fields that the row does not read (R111). -/
abbrev Op.ReadsAlike (op : Op) (v w : Word) : Prop := v &&& ~~~op.unusedMask = w &&& ~~~op.unusedMask

section ReadsAlike
variable {op : Op} {v w : Word} (h : op.ReadsAlike v w)
include h

/-- A field that the row reads is the same in both words. -/
theorem field_congr {lo n : Nat} (hread : op.Reads lo n) : v.extractLsb' lo n = w.extractLsb' lo n := by
  have hfield := congrArg (BitVec.extractLsb' lo n) h
  rwa [BitVec.extractLsb'_and, BitVec.extractLsb'_and, hread, BitVec.and_allOnes, BitVec.and_allOnes] at hfield

/-- Every row reads the opcode. -/
theorem opcodeField_congr : opcodeField v = opcodeField w := field_congr h (by cases op <;> decide)

/-- The operand `sh(Rn)` is the same where the row reads its three fields. -/
theorem shiftedField_congr (hrn : op.Reads 12 4) (hamt : op.Reads 4 4) (hdir : op.Reads 2 2) :
    shiftedField v = shiftedField w := by
  simp only [shiftedField, rnField, dirField, shField, field_congr h hrn, field_congr h hamt, field_congr h hdir]

/-- The fields that a row reads decide what it decodes to (R111). -/
theorem decodeFields_congr (c : Config) : decodeFields c op v = decodeFields c op w := by
  have rd (hread) : rdField v = rdField w := field_congr h hread
  have rm (hread) : rmField v = rmField w := field_congr h hread
  have imm16 (hread) : imm16Field v = imm16Field w := field_congr h hread
  cases op with
  | ldrI | strI =>
    have imm14 : imm14Field v = imm14Field w := field_congr h (by decide)
    have size : sizeFieldM v = sizeFieldM w := field_congr h (by decide)
    simp only [decodeFields, decodeM, size, rd (by decide), rm (by decide), imm14]
  | ldrR | strR =>
    have rn : rnField v = rnField w := field_congr h (by decide)
    have size : sizeFieldR v = sizeFieldR w := field_congr h (by decide)
    simp only [decodeFields, decodeMR, size, rd (by decide), rm (by decide), rn,
      shiftedField_congr h (by decide) (by decide) (by decide)]
  | movFromBank | movToBank =>
    have bank : bankField v = bankField w := field_congr h (by decide)
    simp only [decodeFields, rd (by decide), rm (by decide), bank]
  | movt | mov => simp only [decodeFields, rd (by decide), imm16 (by decide)]
  | cmp | tst => simp only [decodeFields, rm (by decide), imm16 (by decide)]
  | add | addc | sub | subc | and | bic | or | xor =>
    simp only [decodeFields, rd (by decide), rm (by decide), imm16 (by decide)]
  | movR => simp only [decodeFields, rd (by decide), shiftedField_congr h (by decide) (by decide) (by decide)]
  | cmpR | tstR => simp only [decodeFields, rm (by decide), shiftedField_congr h (by decide) (by decide) (by decide)]
  | addR | addcR | subR | subcR | andR | bicR | orR | xorR =>
    simp only [decodeFields, rd (by decide), rm (by decide),
      shiftedField_congr h (by decide) (by decide) (by decide)]

end ReadsAlike

/-- The fields an instruction does not read are those that its row does not read (R111). -/
theorem notRead_eq_unusedMask {c : Config} {op : Op} {w : Word} {i : Instr} (h : decodeFields c op w = .instr i) :
    Claims.notRead i = op.unusedMask := by
  cases op with
  | ldrI | strI => obtain ⟨z, -, rfl⟩ := eq_of_decodeM h; cases z <;> rfl
  | ldrR | strR => obtain ⟨z, -, rfl⟩ := eq_of_decodeMR h; cases z <;> rfl
  | _ => cases h; rfl

/-- Under the policy ignore a row's word decodes by its fields (R111). -/
theorem decodeWord_of_ignore {c : Config} {op : Op} {w : Word} (hpolicy : c.reservedFieldPolicy = .ignore)
    (hop : opcodeField w = op.code8 c.opcodePlacement) : decodeWord c w = decodeFields c op w := by
  simp [decodeWord, hop, hpolicy]

/-- Under the policy refuse a row's word with an unread bit set is refused (R111). -/
theorem decodeWord_of_unread {c : Config} {op : Op} {w : Word} (hpolicy : c.reservedFieldPolicy = .refuse)
    (hop : opcodeField w = op.code8 c.opcodePlacement) (hmask : w &&& op.unusedMask ≠ 0#32) :
    decodeWord c w = .refuse .nonZeroUnusedField := by
  simp [decodeWord, hop, hpolicy, hmask]

/-- The policy on unread fields has no say in what the fields of a row mean. -/
theorem decodeFields_withPolicy (c : Config) (p : ReservedFieldPolicy) (op : Op) (w : Word) :
    decodeFields { c with reservedFieldPolicy := p } op w = decodeFields c op w := by
  cases op <;> rfl

/-- Each line of the table of R111 is a row's. -/
theorem row_of_mem_unreadTable {op6 : Nat} {mask : Word} (h : (op6, mask) ∈ Claims.unreadTable) :
    ∃ op : Op, op.code6.toNat = op6 ∧ op.unusedMask = mask := by
  have table : ∀ e ∈ Claims.unreadTable,
      (opOfCode6 (BitVec.ofNat 6 e.1)).map (fun op => (op.code6.toNat, op.unusedMask)) = some e := by decide
  obtain ⟨op, -, hop⟩ := Option.map_eq_some_iff.1 (table _ h)
  exact ⟨op, congrArg Prod.fst hop, congrArg Prod.snd hop⟩

end Sys2Proof

namespace Sys2Proof.Machine

/-- A step at which the machine fetches, by what the word decodes to (R116). -/
theorem step_of_fetches {s : State} (h : Fetches s) :
    step s = match decodeWord s.config (s.memRead s.pc 4) with
      | .instr i => exec i s
      | .ud => takeException s .ud
      | .refuse r => .refused (refusalOf r) := by
  rw [step, boundary_of_fetches h]
  cases decodeWord s.config (s.memRead s.pc 4) <;> rfl

end Sys2Proof.Machine

namespace Sys2Proof.Claims

open Sys2Proof.Machine

/-- Settles O4: what an instruction does not read its row does not read, so the other word decodes by equal fields. -/
theorem unreadFieldsIgnored : Obligations.UnreadFieldsIgnored := by
  intro c w v i hpolicy hw hvw
  obtain ⟨op, hop, hi, -⟩ := row_of_decodeWord hw
  rw [notRead_eq_unusedMask hi] at hvw
  rw [decodeWord_of_ignore hpolicy ((opcodeField_congr hvw).trans hop.symm), decodeFields_congr hvw c, hi]

/-- The number of a direction's code (R103). -/
theorem dirNumber_dirOfCode (b : BitVec 2) : dirNumber (dirOfCode b) = b.toNat := by revert b; decide

/-- The number of a bank's code (R106). -/
theorem bankNumber_bankOfCode (b : BitVec 2) : bankNumber (bankOfCode b) = b.toNat := by revert b; decide

/-- The number of a size in the table of R102 (D3). -/
def sizeNumber : Size → Nat
  | .b => 0
  | .w => 1
  | .d => 2

/-- The default code of a size is its number (R102, D3). -/
theorem toNat_of_sizeOf_default {b : BitVec 2} {z : Size} (h : Config.default.sizeCode.sizeOf b = some z) :
    b.toNat = sizeNumber z := by
  revert b
  cases z <;> decide

section Formats
variable {w : Word} {op8 : Nat} (hop : w.toNat / 2 ^ 24 = op8)
include hop

/-- A word has the fields of the I format (R92). -/
theorem fieldsI : FieldsI w op8 (rdField w) (rmField w) (imm16Field w) :=
  ⟨hop, toNat_field w 20 4, toNat_field w 16 4, toNat_imm16Field w⟩

/-- A word has the fields of the M format, its size code read as a number (R94). -/
theorem fieldsM {k : Nat} (hk : (sizeFieldM w).toNat = k) :
    FieldsM w op8 k (rdField w) (rmField w) (imm14Field w) :=
  ⟨hop, toNat_field w 20 4, toNat_field w 16 4, hk ▸ toNat_field w 14 2,
    (toNat_field w 0 14).trans (by rw [Nat.pow_zero, Nat.div_one])⟩

/-- A word has the fields of the R format (R93, R103). -/
theorem fieldsR : FieldsR w op8 (rdField w) (rmField w) (shiftedField w) :=
  ⟨hop, toNat_field w 20 4, toNat_field w 16 4, toNat_field w 12 4, toNat_field w 4 4,
    (dirNumber_dirOfCode _).trans (toNat_field w 2 2)⟩

/-- A word has the fields of a banked MOV (R93, R106). -/
theorem fieldsBank : FieldsI w op8 (rdField w) (rmField w) (BitVec.ofNat 16 w.toNat) ∧
    bankNumber (bankOfCode (bankField w)) = w.toNat % 4 :=
  ⟨⟨hop, toNat_field w 20 4, toNat_field w 16 4, BitVec.toNat_ofNat ..⟩,
    (bankNumber_bankOfCode _).trans ((toNat_field w 0 2).trans (by simp))⟩

end Formats

/-- The field rd, written as the word shifted down. -/
theorem rdField_eq_ofNat (w : Word) : rdField w = BitVec.ofNat 4 (w.toNat / 2 ^ 20) :=
  BitVec.eq_of_toNat_eq (by rw [rdField, toNat_field, BitVec.toNat_ofNat])

/-- The field rm, written as the word shifted down. -/
theorem rmField_eq_ofNat (w : Word) : rmField w = BitVec.ofNat 4 (w.toNat / 2 ^ 16) :=
  BitVec.eq_of_toNat_eq (by rw [rmField, toNat_field, BitVec.toNat_ofNat])

/-- Settles O5: the row's opcode stands in the top byte, and each format's fields are read at their places. -/
theorem fieldsAtTheirPlaces : Obligations.FieldsAtTheirPlaces := by
  intro c w i hsize hw
  obtain ⟨op, hop, hi, -⟩ := row_of_decodeWord hw
  replace hop := top_byte_of_row hop
  cases op with
  | ldrI | strI =>
    obtain ⟨z, hz, rfl⟩ := eq_of_decodeM hi
    have hk := toNat_of_sizeOf_default (hsize ▸ hz)
    cases z <;> exact fieldsM hop hk
  | ldrR | strR =>
    obtain ⟨z, hz, rfl⟩ := eq_of_decodeMR hi
    have hk : w.toNat / 2 ^ 8 % 4 = sizeNumber z :=
      (toNat_field w 8 2).symm.trans (toNat_of_sizeOf_default (hsize ▸ hz))
    cases z <;> exact ⟨fieldsR hop, hk⟩
  | movFromBank | movToBank => cases hi; exact fieldsBank hop
  | add | addc | sub | subc | and | bic | or | xor => cases hi; exact fieldsI hop
  | addR | addcR | subR | subcR | andR | bicR | orR | xorR => cases hi; exact fieldsR hop
  | movt | mov => cases hi; rw [FieldsOf, ← rmField_eq_ofNat]; exact fieldsI hop
  | cmp | tst => cases hi; rw [FieldsOf, ← rdField_eq_ofNat]; exact fieldsI hop
  | movR => cases hi; rw [FieldsOf, ← rmField_eq_ofNat]; exact fieldsR hop
  | cmpR | tstR => cases hi; rw [FieldsOf, ← rdField_eq_ofNat]; exact fieldsR hop

/-- Settles O6: a row's opcode is an assigned one, so a word with another belongs to no row. -/
theorem unassignedOpcodesStop : Obligations.UnassignedOpcodesStop := by
  intro c w hw
  have hnone : opOfCode8 c.opcodePlacement (opcodeField w) = none := by
    rw [Option.eq_none_iff_forall_ne_some]
    intro op hop
    exact hw _ (code6_mem_assigned op) (top_byte_of_row (code8_of_opOfCode8 _ _ _ hop))
  cases hpolicy : c.unassignedOpcode <;> simp [decodeWord, hnone, decodeUnassigned, hpolicy]

/-- Size code 11 names no size by default (R102, D3). -/
theorem sizeOf_default_eq_none {b : BitVec 2} (h : b.toNat = 3) : Config.default.sizeCode.sizeOf b = none := by
  rw [BitVec.eq_of_toNat_eq (y := 3#2) h]
  rfl

/-- Settles O7: the size code's check comes last; in the register forms #UD for Rn = 15 comes before it. -/
theorem reservedSizeCodeStops : Obligations.ReservedSizeCodeStops := by
  intro c w hsize hpolicy
  have rowDecodes (op : Op) (hop : w.toNat / 2 ^ 24 = placed c.opcodePlacement op.code6.toNat) :
      decodeWord c w = decodeFields c op w := decodeWord_of_ignore hpolicy (opcodeField_of_top_byte hop)
  constructor
  · rintro ⟨⟨op6, hmem, hop⟩, h3⟩
    have hcode : c.sizeCode.sizeOf (sizeFieldM w) = none :=
      hsize ▸ sizeOf_default_eq_none ((toNat_field w 14 2).trans h3)
    simp only [List.mem_cons, List.not_mem_nil, or_false] at hmem
    obtain rfl | rfl := hmem
    · rw [rowDecodes .ldrI hop, decodeFields, decodeM, hcode]
    · rw [rowDecodes .strI hop, decodeFields, decodeM, hcode]
  · rintro ⟨⟨op6, hmem, hop⟩, h3⟩
    have hcode : c.sizeCode.sizeOf (sizeFieldR w) = none :=
      hsize ▸ sizeOf_default_eq_none ((toNat_field w 8 2).trans h3)
    have hrn : rnField w = 15#4 ↔ w.toNat / 2 ^ 12 % 16 = 15 := by
      rw [← BitVec.toNat_inj, rnField, toNat_field]
      rfl
    simp only [List.mem_cons, List.not_mem_nil, or_false] at hmem
    obtain rfl | rfl := hmem
    · simp only [rowDecodes .ldrR hop, decodeFields, decodeMR, hcode, hrn]
    · simp only [rowDecodes .strR hop, decodeFields, decodeMR, hcode, hrn]

/-- Settles O60: the check of the unread fields is the first after the opcode, and the policy has no other say. -/
theorem unreadFieldsRefused : Obligations.UnreadFieldsRefused := by
  intro c w op6 mask htable hop hpolicy
  obtain ⟨op, rfl, rfl⟩ := row_of_mem_unreadTable htable
  replace hop : opcodeField w = op.code8 c.opcodePlacement := opcodeField_of_top_byte hop
  constructor
  · intro hmask
    have hrefused := decodeWord_of_unread hpolicy hop hmask
    refine ⟨hrefused, fun s hs hconfig hword => ?_⟩
    rw [step_of_fetches hs, hconfig, hword, hrefused]
    rfl
  · intro hmask
    rw [decodeWord_of_row hop hmask, ← decodeFields_withPolicy c .ignore op w]
    exact (decodeWord_of_ignore (c := { c with reservedFieldPolicy := .ignore }) rfl hop).symm

/-- Settles O1: evaluated. -/
theorem knownWordsDecode : Obligations.KnownWordsDecode := by
  unfold Obligations.KnownWordsDecode
  decide

/-- Settles O8: the boundary of a step that fetches leads to what the word decodes to. -/
theorem stepRunsDecodedInstruction : Obligations.StepRunsDecodedInstruction := by
  intro s h
  rw [step_of_fetches h]
  exact ⟨fun i hi => by rw [hi], fun hud => by rw [hud], fun r hr => by rw [hr]⟩

/-- No row's fields read as an instruction without an opcode (R109). -/
theorem hasOpcode_of_decodeFields {c : Config} {op : Op} {w : Word} {i : Instr} (h : decodeFields c op w = .instr i) :
    i.hasOpcode = true := by
  cases op with
  | ldrI | strI => obtain ⟨z, -, rfl⟩ := eq_of_decodeM h; cases z <;> rfl
  | ldrR | strR => obtain ⟨z, -, rfl⟩ := eq_of_decodeMR h; cases z <;> rfl
  | _ => cases h; rfl

/-- Settles O44: what decodes has an opcode of its own, and these three have none. -/
theorem undecodableInstructionsStop : Obligations.UndecodableInstructionsStop := by
  refine ⟨fun c w imm => ?_, fun s c imm => ⟨rfl, rfl, rfl, rfl, rfl, rfl⟩⟩
  have opcodeless (i : Instr) (hi : i.hasOpcode = false) : decodeWord c w ≠ .instr i := by
    intro h
    obtain ⟨op, -, hop⟩ := decodeFields_of_decodeWord h
    rw [hasOpcode_of_decodeFields hop] at hi
    cases hi
  exact ⟨opcodeless _ rfl, opcodeless _ rfl, opcodeless _ rfl⟩

end Sys2Proof.Claims

/-! The stops of a step before the decoder, the checks of an access, and taking an exception (R116, R195, R196). -/

namespace Sys2Proof.Machine

/-! The boundary (R116 steps 1 to 5). -/

/-- A step at which no interrupt is asked for, away from END_PC, is what the issue leads to. -/
theorem step_of_not_asked {s : State} (hend : s.config.endPc ≠ some s.pc)
    (hirq : s.config.irqOracle = .never ∨ s.mcr.i = false) :
    step s = match issue s with
      | .run i t => exec i t
      | .stop o => o := by
  have hasked : irqAsked s = false := by
    obtain hirq | hirq := hirq <;> simp [irqAsked, hirq]
  rw [step, boundary, if_neg hend, hasked]
  rfl

/-- With debug mode off, a fetch's refusal is the issue's (R116). -/
theorem issue_of_fetch_error {s : State} {r : Refusal} (hdbg : s.mcr.dbg = false) (h : fetchWord s = .error r) :
    issue s = .stop (.refused r) := by
  simp [issue, hdbg, h]

/-- The low two bits of the pc are its remainder modulo 4 (R31). -/
theorem low_bits_eq_zero_iff (a : Word) : a.extractLsb' 0 2 = 0#2 ↔ a.toNat % 4 = 0 := by
  rw [← BitVec.toNat_inj, toNat_field]
  simp

/-- A fetch at an unaligned pc (R31). -/
theorem fetchWord_unaligned {s : State} (h : s.pc.toNat % 4 ≠ 0) : fetchWord s = .error .unalignedPc := by
  rw [fetchWord, if_pos (mt (low_bits_eq_zero_iff s.pc).1 h)]

/-- A fetch with a byte outside MEM_DOMAIN (R63). -/
theorem fetchWord_outside {s : State} (ha : s.pc.toNat % 4 = 0) (h : ¬ BytesInDomain s.config s.pc 4) :
    fetchWord s = .error .outsideMemDomain := by
  have hrange : rangeInDomain s.config s.pc 4 = false := by
    rwa [← Bool.not_eq_true, rangeInDomain_eq_true]
  simp [fetchWord, (low_bits_eq_zero_iff s.pc).2 ha, hrange]

/-- A fetch of a byte stored to since launch (R79). -/
theorem fetchWord_modified {s : State} (ha : s.pc.toNat % 4 = 0) (hd : BytesInDomain s.config s.pc 4)
    (h : ∃ k, k < 4 ∧ (s.pc + BitVec.ofNat 32 k).toNat ∈ s.stored) : fetchWord s = .error .modifiedCode := by
  have hrange : rangeInDomain s.config s.pc 4 = true := (rangeInDomain_eq_true ..).2 hd
  have hstored : anyStored s.stored s.pc 4 = true := (anyStored_eq_true ..).2 h
  simp [fetchWord, (low_bits_eq_zero_iff s.pc).2 ha, hrange, hstored]

/-! The access of a load or store (R69, R70, R63). -/

/-- A load or store with an access is that access, with some effect, of 1, 2 or 4 bytes. -/
theorem exec_of_accessOf {i : Instr} {s : State} {a : Word} {n : Nat} (h : accessOf s i = some (a, n)) :
    ∃ z t, n = bytesOf z ∧ exec i s = withAccess s a (bytesOf z) t := by
  have shifted {op : ShiftedReg} {b : Word} {m : Nat}
      (hop : (if op.rn = 15#4 then none else some (b, m)) = some (a, n)) :
      op.rn ≠ 15#4 ∧ b = a ∧ m = n := by
    split at hop
    · cases hop
    · rename_i hrn
      cases hop
      exact ⟨hrn, rfl, rfl⟩
  cases i with
  | ldrB | strB => cases h; exact ⟨.b, _, rfl, rfl⟩
  | ldrW | strW => cases h; exact ⟨.w, _, rfl, rfl⟩
  | ldrD | strD => cases h; exact ⟨.d, _, rfl, rfl⟩
  | ldrBR rd rm op =>
    obtain ⟨hrn, rfl, rfl⟩ := shifted h
    exact ⟨.b, _, rfl, withShifted_ne (k := fun b => load .b rd (s.x rm + b) s) hrn⟩
  | strBR rd rm op =>
    obtain ⟨hrn, rfl, rfl⟩ := shifted h
    exact ⟨.b, _, rfl, withShifted_ne (k := fun b => store .b rd (s.x rm + b) s) hrn⟩
  | ldrWR rd rm op =>
    obtain ⟨hrn, rfl, rfl⟩ := shifted h
    exact ⟨.w, _, rfl, withShifted_ne (k := fun b => load .w rd (s.x rm + b) s) hrn⟩
  | strWR rd rm op =>
    obtain ⟨hrn, rfl, rfl⟩ := shifted h
    exact ⟨.w, _, rfl, withShifted_ne (k := fun b => store .w rd (s.x rm + b) s) hrn⟩
  | ldrDR rd rm op =>
    obtain ⟨hrn, rfl, rfl⟩ := shifted h
    exact ⟨.d, _, rfl, withShifted_ne (k := fun b => load .d rd (s.x rm + b) s) hrn⟩
  | strDR rd rm op =>
    obtain ⟨hrn, rfl, rfl⟩ := shifted h
    exact ⟨.d, _, rfl, withShifted_ne (k := fun b => store .d rd (s.x rm + b) s) hrn⟩
  | _ => cases h

/-- A misaligned access without #AC is refused (R70). -/
theorem withAccess_misaligned {s : State} {a : Word} {n : Nat} (hac : NoAc s.config a n) (h : a.toNat % n ≠ 0)
    (t : State) : withAccess s a n t = .refused .misalignedAccess := by
  rw [withAccess, accessCheck, (acRaised_eq_false ..).2 hac]
  simp [h]

/-- An aligned access of 1, 2 or 4 bytes does not pass the top of the address space (R62). -/
theorem not_wraps_of_aligned {a : Word} {z : Size} (h : a.toNat % bytesOf z = 0) : ¬ 2 ^ 32 < a.toNat + bytesOf z := by
  have ha := a.isLt
  cases z <;> simp only [bytesOf] at h ⊢ <;> omega

/-- An aligned access with a byte outside MEM_DOMAIN is refused (R63). -/
theorem withAccess_outside {s : State} {a : Word} {z : Size} (hac : NoAc s.config a (bytesOf z))
    (hal : a.toNat % bytesOf z = 0) (h : ¬ BytesInDomain s.config a (bytesOf z)) (t : State) :
    withAccess s a (bytesOf z) t = .refused .outsideMemDomain := by
  have hrange : rangeInDomain s.config a (bytesOf z) = false := by
    rwa [← Bool.not_eq_true, rangeInDomain_eq_true]
  rw [withAccess, accessCheck, (acRaised_eq_false ..).2 hac, if_neg Bool.false_ne_true, if_neg (not_not.2 hal),
    if_neg (not_wraps_of_aligned hal), hrange]
  rfl

end Sys2Proof.Machine

namespace Sys2Proof.Claims

open Sys2Proof.Machine

/-- Settles O9: the checks in their order; each is reached where those before it pass. -/
theorem stopsBeforeDecode : Obligations.StopsBeforeDecode := by
  intro s
  constructor
  · intro hend
    simp [step, boundary, hend]
  · intro hend hirq
    rw [step_of_not_asked hend hirq]
    have fetchStops {r : Refusal} (hdbg : s.mcr.dbg = false) (h : fetchWord s = .error r) :
        (match issue s with | .run i t => exec i t | .stop o => o) = .refused r := by
      rw [issue_of_fetch_error hdbg h]
    refine ⟨fun hdbg => by simp [issue, hdbg], fun hdbg =>
      ⟨fun hal => ?_, fun hal => ⟨fun hdom => ?_, fun hdom hst => ?_⟩⟩⟩
    · exact fetchStops hdbg (fetchWord_unaligned hal)
    · exact fetchStops hdbg (fetchWord_outside hal hdom)
    · exact fetchStops hdbg (fetchWord_modified hal hdom hst)

/-- Settles O10: the environment is asked, and its answer taken or the issue gone on with. -/
theorem interruptAtBoundary : Obligations.InterruptAtBoundary := by
  intro s hend horacle hi
  have hasked : irqAsked s = true := by simp [irqAsked, horacle, hi]
  rw [step, boundary, if_neg hend, if_pos hasked]
  cases Config.irqRequest s.draws <;> rfl

/-- Settles O12: the check of #AC is the first of the access that such an instruction is. -/
theorem misalignedAddressRaisesAc : Obligations.MisalignedAddressRaisesAc := by
  intro i s a n haccess hac
  obtain ⟨z, t, rfl, hexec⟩ := exec_of_accessOf haccess
  rw [hexec]
  refine withAccess_ac ?_ t
  rwa [← Bool.not_eq_false, acRaised_eq_false]

/-- Settles O13: alignment is checked after #AC, MEM_DOMAIN after that; R62's wrap is never reached. -/
theorem misplacedAccessRefused : Obligations.MisplacedAccessRefused := by
  intro i s a n haccess hac
  obtain ⟨z, t, rfl, hexec⟩ := exec_of_accessOf haccess
  rw [hexec]
  exact ⟨fun hal => withAccess_misaligned hac hal t, fun hal hdom => withAccess_outside hac hal hdom t⟩

/-- Settles O15: the fault state of each cause (R196). -/
theorem defaultEntryIsFault : Obligations.DefaultEntryIsFault := by
  intro s a n h
  exact ⟨takeException_fault h .ud, takeException_fault h (.ac a), takeException_fault h (.interrupt n)⟩

/-- Settles O16: the supplied entry sets what R200 fixes and takes the rest from the entry function. -/
theorem suppliedEntryConstraints : Obligations.SuppliedEntryConstraints := by
  intro s k c h
  have saved := flagsOfBits_bits s.flags
  refine ⟨s.enterTrap k c, takeException_supplied h c, rfl, ?_, ?_, congrArg Flags.n saved, congrArg Flags.z saved,
    congrArg Flags.c saved, congrArg Flags.v saved, fun _ => rfl, fun _ => rfl, fun _ => rfl, rfl, fun _ => rfl, rfl,
    rfl, rfl, rfl, rfl, rfl⟩
  · rintro n rfl
    rfl
  · intro hc
    cases c with
    | ud | ac => rfl
    | interrupt n => exact absurd rfl (hc n)

end Sys2Proof.Claims

/-! What an instruction leaves unchanged under TRAP_ENTRY = fault: the flags, MCR, the sequence of the pc. -/

namespace Sys2Proof.Machine

/-- Under TRAP_ENTRY = fault no next state is an exception's entry (R196). -/
theorem exec_next_cases_of_fault {i : Instr} {s t : State} (hs : s.config.trapEntry = .fault) (h : exec i s = .next t) :
    RegisterEffect i s t ∨ StoreEffect i s t ∨ BankEffect i s t := by
  obtain h | h | h | ⟨f, hf, -⟩ := exec_next_cases h
  · exact .inl h
  · exact .inr (.inl h)
  · exact .inr (.inr h)
  · rw [hs] at hf
    cases hf

/-- The mode is a field of MCR (R24). -/
theorem State.mode_congr {s t : State} (h : t.mcr = s.mcr) : t.mode = s.mode := by
  rw [State.mode, State.mode, h]

/-- An instruction with a destination in the current mode writes the pc exactly if that is number 15 (R29). -/
theorem writesPc_of_dest {i : Instr} {rd : RegNum} (h : i.dest = some rd) :
    Claims.writesPc i = decide (rd = 15#4) := by
  cases i with
  | movToBank => cases h
  | _ => simp only [Claims.writesPc, h, Option.some.injEq]

/-- The pc after a write of another register goes on by 4 (R30). -/
theorem State.pc_writeBack_of_ne (s : State) {rd : RegNum} (h : rd ≠ 15#4) (v : Word) :
    (s.writeBack rd v).pc = s.pc + 4#32 := by
  have hpc := s.get_writeBack rd v .pc
  rwa [if_neg fun e => h ((regOf_eq_pc _ _).1 e.symm), if_pos rfl] at hpc

/-- The pc after a write of another register of either bank goes on by 4 (R30). -/
theorem State.pc_put_of_ne (s : State) {g : Reg} (h : g ≠ .pc) (v : Word) : (s.put g v).pc = s.pc := by
  have hpc := s.get_put g .pc v
  rwa [if_neg h.symm] at hpc

end Sys2Proof.Machine

namespace Sys2Proof.Claims

open Sys2Proof.Machine

/-- Settles O55: of the effects an instruction outside the ALU class can have, one alone writes the flags. -/
theorem flagsChangeOnlyByAlu : Obligations.FlagsChangeOnlyByAlu := by
  intro i s t hs halu hnot h
  obtain ⟨f, k, hf, ⟨rd, v, -, rfl⟩ | ⟨-, -, rfl⟩⟩ | h | ⟨rd, rm, ⟨m, -, rfl⟩ | ⟨rfl, -⟩ | ⟨-, -, rfl⟩⟩ :=
    exec_next_cases_of_fault hs h
  · simpa using hf halu
  · simpa using hf halu
  · obtain ⟨hflags, -⟩ := h.frame
    exact hflags
  · simp
  · exact absurd rfl (hnot rm)
  · simp

/-- Settles O56: of the effects an instruction can have, one alone writes MCR. -/
theorem mcrChangesOnlyByMove : Obligations.McrChangesOnlyByMove := by
  intro i s t hs hnot h
  suffices hmcr : t.mcr = s.mcr from ⟨hmcr, State.mode_congr hmcr⟩
  obtain h | h | ⟨rd, rm, ⟨m, -, rfl⟩ | ⟨-, rfl⟩ | ⟨rfl, -⟩⟩ := exec_next_cases_of_fault hs h
  · obtain ⟨hmcr, -⟩ := h.frame
    exact hmcr
  · obtain ⟨-, hmcr, -⟩ := h.frame
    exact hmcr
  · simp
  · simp
  · exact absurd rfl (hnot rm)

/-- Settles O57: every effect advances the pc, and only a write of register 15 sets it otherwise. -/
theorem sequentialUnlessPcWritten : Obligations.SequentialUnlessPcWritten := by
  intro i s t hs hpc h
  suffices hnext : t.pc = s.pc + 4#32 by rw [hnext, BitVec.toNat_add]; rfl
  obtain ⟨f, k, -, ⟨rd, v, hrd, rfl⟩ | ⟨-, -, rfl⟩⟩ | ⟨z, rd, a, -, -, -, rfl⟩ |
    ⟨rd, rm, ⟨m, hi, rfl⟩ | ⟨-, rfl⟩ | ⟨-, -, rfl⟩⟩ := exec_next_cases_of_fault hs h
  · rw [writesPc_of_dest hrd, decide_eq_false_iff_not] at hpc
    exact State.pc_writeBack_of_ne _ hpc v
  · rfl
  · rfl
  · refine State.pc_put_of_ne _ (fun hreg => ?_) _
    rw [regOf_eq_pc] at hreg
    obtain ⟨rfl, -⟩ | ⟨rfl, -⟩ := hi <;> simp [writesPc, hreg] at hpc
  · rfl
  · rfl

end Sys2Proof.Claims

/-! Two runs side by side: what an instruction does where the two states agree on what it may read. The registers they
agree on and whether they agree on the flags are parameters; TRAP_ENTRY may differ. -/

namespace Sys2Proof.Machine

/-- The states agree on the registers of `K`, on the flags if `F`, and on all else but TRAP_ENTRY. -/
structure Agree (K : Reg → Prop) (F : Prop) (s u : State) : Prop where
  get : ∀ g, K g → u.get g = s.get g
  flags : F → u.flags = s.flags
  mcr : u.mcr = s.mcr
  mem : u.mem = s.mem
  stored : u.stored = s.stored
  draws : u.draws = s.draws
  config : ∃ e, u.config = { s.config with trapEntry := e }

/-- What `i` may raise in `s`: #UD for an Rn that is the pc, #AC for the address of its access (R190, R191). -/
def Raises (i : Instr) (s : State) (c : TrapCause) : Prop :=
  (c = .ud ∧ i.rn = some 15#4) ∨ ∃ a n, c = .ac a ∧ accessOf s i = some (a, n)

/-- The outcomes of `i` in `s` and `u` are next states that agree, the same refusal, or the same raise. -/
def Tandem (K : Reg → Prop) (F : Prop) (i : Instr) (s u : State) (o p : Result) : Prop :=
  (∃ t v, o = .next t ∧ p = .next v ∧ Agree K F t v) ∨ (∃ r, o = .refused r ∧ p = .refused r) ∨
    ∃ c, Raises i s c ∧ o = takeException s c ∧ p = takeException u c

/-- FLAGS is number 0 of Bank 3 (R26). -/
theorem eq_of_bankedReg_flags {b : BankSel} {n : RegNum} (h : bankedReg b n = .ok .flags) : b = .bank3 ∧ n = 0#4 := by
  cases b with
  | reserved | supervisor | interrupt => cases h
  | bank3 =>
    by_cases h0 : n = 0#4
    · exact ⟨rfl, h0⟩
    · rw [bankedReg, if_neg h0] at h
      split at h <;> cases h

section Agree
variable {K : Reg → Prop} {F : Prop} {s u : State}

/-- A state agrees with itself. -/
theorem Agree.refl (K : Reg → Prop) (F : Prop) (s : State) : Agree K F s s :=
  ⟨fun _ _ => rfl, fun _ => rfl, rfl, rfl, rfl, rfl, s.config.trapEntry, rfl⟩

variable (h : Agree K F s u)
include h

/-! Writes of the same value keep two states in agreement. -/

theorem Agree.put (g : Reg) (v : Word) : Agree K F (s.put g v) (u.put g v) where
  get k hk := by rw [State.get_put, State.get_put, h.get k hk]
  flags hF := by simpa using h.flags hF
  mcr := by simpa using h.mcr
  mem := by simpa using h.mem
  stored := by simpa using h.stored
  draws := by simpa using h.draws
  config := by simpa using h.config

theorem Agree.setFlags {f f' : Flags} (hf : F → f' = f) : Agree K F (s.setFlags f) (u.setFlags f') :=
  { h with
    get := fun g hg => by rw [State.get_setFlags, State.get_setFlags, h.get g hg]
    flags := hf }

theorem Agree.setMcr (m : Mcr) : Agree K F (s.setMcr m) (u.setMcr m) :=
  { h with
    get := fun g hg => by rw [State.get_setMcr, State.get_setMcr, h.get g hg]
    mcr := rfl }

theorem Agree.skipDraws (n : Nat) : Agree K F (s.skipDraws n) (u.skipDraws n) :=
  { h with
    get := fun g hg => by rw [State.get_skipDraws, State.get_skipDraws, h.get g hg]
    draws := congrArg (· + n) h.draws }

theorem Agree.advance (hpc : K .pc) : Agree K F s.advance u.advance :=
  { h with
    get := fun g hg => by
      rw [State.get_advance, State.get_advance, h.get g hg, show u.pc = s.pc from h.get .pc hpc] }

theorem Agree.memWrite (a : Word) (n : Nat) (v : Word) : Agree K F (s.memWrite a n v) (u.memWrite a n v) := by
  obtain ⟨e, he⟩ := h.config
  exact { h with
    get := fun g hg => by rw [State.get_memWrite, State.get_memWrite, h.get g hg]
    mem := by simp only [State.memWrite, State.setMem_mem, h.mem, he]
    stored := by simp only [State.memWrite, State.setMem_stored, h.stored] }

/-! Reads that two states in agreement share. -/

theorem Agree.mode : u.mode = s.mode := State.mode_congr h.mcr

theorem Agree.drawn (k : Nat) : u.drawn k = s.drawn k := by
  rw [State.drawn, State.drawn, h.draws]

theorem Agree.loadValue (z : Size) (a : Word) : u.loadValue z a = s.loadValue z a := by
  obtain ⟨e, he⟩ := h.config
  simp only [State.loadValue, State.memRead, h.mem, he]

/-- MEM_DOMAIN and the rules of #AC are no part of TRAP_ENTRY, so an access is checked alike (R69, R63). -/
theorem Agree.accessCheck (a : Word) (n : Nat) : accessCheck u a n = accessCheck s a n := by
  obtain ⟨e, he⟩ := h.config
  have hrange : rangeInDomain u.config a n = rangeInDomain s.config a n := by
    rw [Bool.eq_iff_iff, rangeInDomain_eq_true, rangeInDomain_eq_true, he]
    rfl
  rw [Machine.accessCheck, Machine.accessCheck, hrange, he]
  rfl

theorem Agree.logicFlags (res : Word) : Agree K F (s.logicFlags res) (u.logicFlags res) := by
  obtain ⟨e, he⟩ := h.config
  have hcv : u.config.logicCV = s.config.logicCV := by rw [he]
  rw [State.logicFlags, State.logicFlags, hcv, h.drawn, h.drawn]
  cases s.config.logicCV with
  | draw => exact (h.setFlags fun _ => rfl).skipDraws 2
  | unchanged => exact h.setFlags fun hF => by rw [h.flags hF]
  | cleared => exact h.setFlags fun _ => rfl

/-! The rest supposes that the states agree on the registers of the current mode. -/

variable (hK : ∀ n, K (regOf s.mode n))
include hK

theorem Agree.x (n : RegNum) : u.x n = s.x n := by
  rw [State.x, State.x, h.mode, h.get _ (hK n)]

theorem Agree.shifted (op : ShiftedReg) : u.shifted op = s.shifted op := by
  rw [State.shifted, State.shifted, h.x hK]

theorem Agree.advance_of_mode : Agree K F s.advance u.advance := h.advance (regOf_fifteen s.mode ▸ hK 15#4)

theorem Agree.writeBack (rd : RegNum) (v : Word) : Agree K F (s.writeBack rd v) (u.writeBack rd v) := by
  rw [State.writeBack, State.writeBack, h.mode]
  exact (h.advance_of_mode hK).put _ v

/-! Each way an instruction can run, in two states in agreement. -/

omit h hK in
/-- Next states that agree. -/
theorem Tandem.next {i : Instr} {t v : State} (h : Agree K F t v) : Tandem K F i s u (.next t) (.next v) :=
  .inl ⟨t, v, rfl, rfl, h⟩

omit h hK in
/-- The same refusal. -/
theorem Tandem.refused {i : Instr} (r : Refusal) : Tandem K F i s u (.refused r) (.refused r) :=
  .inr (.inl ⟨r, rfl, rfl⟩)

omit hK in
/-- An access with effects that agree. -/
theorem Agree.withAccess {i : Instr} {a : Word} {n : Nat} {t v : State} (ha : accessOf s i = some (a, n))
    (htv : Agree K F t v) : Tandem K F i s u (withAccess s a n t) (withAccess u a n v) := by
  rw [Machine.withAccess, Machine.withAccess, h.accessCheck]
  cases Machine.accessCheck s a n with
  | ok => exact .next htv
  | raiseAc => exact .inr (.inr ⟨.ac a, .inr ⟨a, n, rfl, ha⟩, rfl, rfl⟩)
  | refuse r => exact .refused r

/-- `sh(Rn)` with what goes on with its value in tandem. -/
theorem Agree.withShifted {i : Instr} {op : ShiftedReg} {k l : Word → Result} (hrn : i.rn = some op.rn)
    (hkl : op.rn ≠ 15#4 → Tandem K F i s u (k (s.shifted op)) (l (s.shifted op))) :
    Tandem K F i s u (withShifted s op k) (withShifted u op l) := by
  by_cases hpc : op.rn = 15#4
  · rw [withShifted_pc hpc, withShifted_pc hpc]
    exact .inr (.inr ⟨.ud, .inl ⟨rfl, by rw [hrn, hpc]⟩, rfl, rfl⟩)
  · rw [withShifted_ne hpc, withShifted_ne hpc, h.shifted hK]
    exact hkl hpc

theorem Agree.load {i : Instr} {z : Size} {a : Word} (ha : accessOf s i = some (a, bytesOf z)) (rd : RegNum) :
    Tandem K F i s u (load z rd a s) (load z rd a u) := by
  rw [Machine.load, Machine.load, h.loadValue]
  exact h.withAccess ha (h.writeBack hK rd _)

theorem Agree.store {i : Instr} {z : Size} {a : Word} (ha : accessOf s i = some (a, bytesOf z)) (rd : RegNum) :
    Tandem K F i s u (store z rd a s) (store z rd a u) := by
  rw [Machine.store, Machine.store, h.x hK]
  exact h.withAccess ha ((h.memWrite a _ _).advance_of_mode hK)

theorem Agree.addTo (rd : RegNum) (a b : Word) (cin : Bool) : Agree K F (addTo rd a b cin s) (addTo rd a b cin u) :=
  (h.setFlags (f := addFlags a b cin) fun _ => rfl).writeBack hK rd _

theorem Agree.subTo (rd : RegNum) (a b : Word) (cin : Bool) : Agree K F (subTo rd a b cin s) (subTo rd a b cin u) :=
  (h.setFlags (f := subFlags a b cin) fun _ => rfl).writeBack hK rd _

theorem Agree.logicTo (rd : RegNum) (res : Word) : Agree K F (logicTo rd res s) (logicTo rd res u) :=
  (h.logicFlags res).writeBack (by simpa using hK) rd _

theorem Agree.execMovFromBank (hall : ∀ g, K g) {rd rm : RegNum} {b : BankSel}
    (hF : F ∨ Claims.readsFlags (.movFromBank rd rm b) = false) :
    Tandem K F (.movFromBank rd rm b) s u (execMovFromBank rd rm b s) (execMovFromBank rd rm b u) := by
  rw [Machine.execMovFromBank, Machine.execMovFromBank]
  cases hb : bankedReg b rm with
  | error r => exact .refused r
  | ok g =>
    cases g with
    | reg p =>
      simp only [readBanked, h.get p (hall p)]
      exact .next (h.writeBack hK rd _)
    | flags =>
      have hflags : F := hF.resolve_right (by simp [Claims.readsFlags, eq_of_bankedReg_flags hb])
      simp only [readBanked, h.flags hflags, h.drawn]
      exact .next ((h.skipDraws 2).writeBack hK rd _)
    | mcr =>
      simp only [readBanked, h.mcr, h.drawn]
      exact .next ((h.skipDraws 2).writeBack hK rd _)

theorem Agree.execMovToBank {rd rm : RegNum} {b : BankSel} :
    Tandem K F (.movToBank rd rm b) s u (execMovToBank rd rm b s) (execMovToBank rd rm b u) := by
  rw [Machine.execMovToBank, Machine.execMovToBank, h.x hK]
  cases bankedReg b rd with
  | error r => exact .refused r
  | ok g =>
    have hadv := h.advance_of_mode hK
    cases g with
    | reg p => exact .next (hadv.put p _)
    | flags => exact .next (hadv.setFlags fun _ => rfl)
    | mcr =>
      simp only [writeBanked]
      split
      · exact .refused _
      · exact .next (hadv.setMcr _)

/-- Every instruction runs in tandem in two states that agree on the current mode's registers; the banked source MOV
asks for every register, ADDC, SUBC and the read of FLAGS for the flags (R25, R185). -/
theorem Agree.exec {i : Instr} (hbank : (∀ rd rm b, i ≠ .movFromBank rd rm b) ∨ ∀ g, K g)
    (hF : F ∨ Claims.readsFlags i = false) : Tandem K F i s u (exec i s) (exec i u) := by
  have carry (hi : Claims.readsFlags i = true) : u.flags.c = s.flags.c := by
    rw [h.flags (hF.resolve_right (by rw [hi]; exact Bool.noConfusion))]
  have hx := h.x hK
  cases i with
  | ldrB | ldrW | ldrD =>
    simp only [Machine.exec, execLdrB, execLdrW, execLdrD, State.addrImm, hx]
    exact h.load hK rfl _
  | strB | strW | strD =>
    simp only [Machine.exec, execStrB, execStrW, execStrD, State.addrImm, hx]
    exact h.store hK rfl _
  | ldrBR | ldrWR | ldrDR =>
    simp only [Machine.exec, execLdrBR, execLdrWR, execLdrDR, hx]
    exact h.withShifted hK rfl fun hrn => h.load hK (by exact if_neg hrn) _
  | strBR | strWR | strDR =>
    simp only [Machine.exec, execStrBR, execStrWR, execStrDR, hx]
    exact h.withShifted hK rfl fun hrn => h.store hK (by exact if_neg hrn) _
  | movt | mov =>
    simp only [Machine.exec, execMovt, execMov, hx]
    exact .next (h.writeBack hK _ _)
  | movR =>
    simp only [Machine.exec, execMovR]
    exact h.withShifted hK rfl fun _ => .next (h.writeBack hK _ _)
  | movFromBank rd rm b => exact h.execMovFromBank hK (hbank.resolve_left fun hne => hne _ _ _ rfl) hF
  | movToBank => exact h.execMovToBank hK
  | add =>
    simp only [Machine.exec, execAdd, hx]
    exact .next (h.addTo hK _ _ _ _)
  | addc =>
    simp only [Machine.exec, execAddc, hx, carry rfl]
    exact .next (h.addTo hK _ _ _ _)
  | sub =>
    simp only [Machine.exec, execSub, hx]
    exact .next (h.subTo hK _ _ _ _)
  | subc =>
    simp only [Machine.exec, execSubc, hx, carry rfl]
    exact .next (h.subTo hK _ _ _ _)
  | addR =>
    simp only [Machine.exec, execAddR, hx]
    exact h.withShifted hK rfl fun _ => .next (h.addTo hK _ _ _ _)
  | addcR =>
    simp only [Machine.exec, execAddcR, hx, carry rfl]
    exact h.withShifted hK rfl fun _ => .next (h.addTo hK _ _ _ _)
  | subR =>
    simp only [Machine.exec, execSubR, hx]
    exact h.withShifted hK rfl fun _ => .next (h.subTo hK _ _ _ _)
  | subcR =>
    simp only [Machine.exec, execSubcR, hx, carry rfl]
    exact h.withShifted hK rfl fun _ => .next (h.subTo hK _ _ _ _)
  | and | bic | or | xor =>
    simp only [Machine.exec, execAnd, execBic, execOr, execXor, hx]
    exact .next (h.logicTo hK _ _)
  | andR | bicR | orR | xorR =>
    simp only [Machine.exec, execAndR, execBicR, execOrR, execXorR, hx]
    exact h.withShifted hK rfl fun _ => .next (h.logicTo hK _ _)
  | cmp =>
    simp only [Machine.exec, execCmp, hx]
    exact .next ((h.setFlags fun _ => rfl).advance_of_mode hK)
  | cmpR =>
    simp only [Machine.exec, execCmpR, hx]
    exact h.withShifted hK rfl fun _ => .next ((h.setFlags fun _ => rfl).advance_of_mode hK)
  | tst =>
    simp only [Machine.exec, execTst, hx]
    exact .next ((h.logicFlags _).advance_of_mode (by simpa using hK))
  | tstR =>
    simp only [Machine.exec, execTstR, hx]
    exact h.withShifted hK rfl fun _ => .next ((h.logicFlags _).advance_of_mode (by simpa using hK))
  | bc | bcl | int => exact .refused _

/-- Under TRAP_ENTRY = fault in both states the outcomes are next states that agree, the same fault, or the same
refusal (R196). -/
theorem Agree.exec_of_fault {i : Instr} (hs : s.config.trapEntry = .fault) (hu : u.config.trapEntry = .fault)
    (hbank : (∀ rd rm b, i ≠ .movFromBank rd rm b) ∨ ∀ g, K g) (hF : F ∨ Claims.readsFlags i = false) :
    (∃ t v, Machine.exec i s = .next t ∧ Machine.exec i u = .next v ∧ Agree K F t v) ∨
      (∃ f, Machine.exec i s = .fault f ∧ Machine.exec i u = .fault f) ∨
      ∃ r, Machine.exec i s = .refused r ∧ Machine.exec i u = .refused r := by
  obtain hnext | hrefused | ⟨c, -, ho, ho'⟩ := h.exec hK hbank hF
  · exact .inl hnext
  · exact .inr (.inr hrefused)
  · have hpc : u.pc = s.pc := h.get .pc (regOf_fifteen s.mode ▸ hK 15#4)
    exact .inr (.inl ⟨faultOf c s.pc, by rw [ho, takeException_fault hs],
      by rw [ho', takeException_fault hu, hpc]⟩)

end Agree

/-- Two states that agree on every register and the flags run every instruction in tandem. -/
theorem Agree.exec_of_all {s u : State} (h : Agree (fun _ => True) True s u) (i : Instr) :
    Tandem (fun _ => True) True i s u (Machine.exec i s) (Machine.exec i u) :=
  h.exec (fun _ => trivial) (.inr fun _ => trivial) (.inl trivial)

/-- Two states that agree on every register and the flags differ in TRAP_ENTRY at most. -/
theorem Agree.eq_withTrapEntry {s u : State} (h : Agree (fun _ => True) True s u) :
    s = { u with config := s.config } := by
  have hr : s.r = u.r := Vector.ext fun i hi => (h.get (.shared ⟨i, hi⟩) trivial).symm
  have hS : s.bankS = u.bankS := Vector.ext fun i hi => (h.get (.sup ⟨i, hi⟩) trivial).symm
  have hI : s.bankI = u.bankI := Vector.ext fun i hi => (h.get (.irq ⟨i, hi⟩) trivial).symm
  have hpc : s.pc = u.pc := (h.get .pc trivial).symm
  cases s
  simp_all [h.flags trivial, h.mcr, h.mem, h.stored, h.draws]

/-- The other state of a pair that differs in TRAP_ENTRY alone agrees on everything. -/
theorem agree_withTrapEntry (s : State) (e : TrapEntry) :
    Agree (fun _ => True) True s { s with config := { s.config with trapEntry := e } } :=
  ⟨fun g _ => by cases g <;> rfl, fun _ => rfl, rfl, rfl, rfl, rfl, e, rfl⟩

/-- What agreement says of a register, the flags, MCR and memory, read from the second state to the first. -/
theorem Agree.symm_fields {K : Reg → Prop} {s u : State} (h : Agree K True s u) :
    (∀ g, K g → s.get g = u.get g) ∧ s.flags = u.flags ∧ s.mcr = u.mcr ∧ s.mem = u.mem ∧ s.stored = u.stored :=
  ⟨fun g hg => (h.get g hg).symm, (h.flags trivial).symm, h.mcr.symm, h.mem.symm, h.stored.symm⟩

/-- A register that no number names in the current mode is left alone by all but the banked destination MOV (R25). -/
theorem exec_get_of_unnamed {i : Instr} {s t : State} {g : Reg} (hs : s.config.trapEntry = .fault)
    (hi : ∀ rd rm b, i ≠ .movToBank rd rm b) (h : exec i s = .next t) (hg : ∀ n, g ≠ regOf s.mode n) :
    t.get g = s.get g := by
  have hpc : g ≠ .pc := regOf_fifteen s.mode ▸ hg 15#4
  obtain ⟨f, k, -, ⟨rd, v, -, rfl⟩ | ⟨-, -, rfl⟩⟩ | ⟨z, rd, a, -, -, -, rfl⟩ | ⟨rd, rm, h⟩ :=
    exec_next_cases_of_fault hs h
  · rw [State.get_writeBack, State.mode_skipDraws, State.mode_setFlags, if_neg (hg rd), if_neg hpc, State.get_skipDraws,
      State.get_setFlags]
  · rw [State.get_advance, if_neg hpc, State.get_skipDraws, State.get_setFlags]
  · rw [State.get_advance, if_neg hpc, State.get_memWrite]
  · obtain ⟨m, ⟨rfl, -⟩ | ⟨rfl, -⟩, -⟩ | ⟨rfl, -⟩ | ⟨rfl, -⟩ := h <;> exact absurd rfl (hi _ _ _)

/-- Other flags leave everything else in agreement. -/
theorem agree_setFlags (s : State) (f : Flags) : Agree (fun _ => True) False s (s.setFlags f) :=
  (Agree.refl _ False s).setFlags (f := s.flags) False.elim

/-- Another IRQ bank leaves everything else in agreement. -/
theorem agree_setBankI (s : State) (bank : Vector Word 7) : Agree (fun g => ∀ k, g ≠ .irq k) True s (s.setBankI bank) :=
  ⟨fun g hg => by cases g with | irq k => exact absurd rfl (hg k) | _ => rfl, fun _ => rfl, rfl, rfl, rfl, rfl,
    s.config.trapEntry, rfl⟩

/-- Another supervisor bank leaves everything else in agreement. -/
theorem agree_withBankS (s : State) (bank : Vector Word 7) :
    Agree (fun g => ∀ k, g ≠ .sup k) True s { s with bankS := bank } :=
  ⟨fun g hg => by cases g with | sup k => exact absurd rfl (hg k) | _ => rfl, fun _ => rfl, rfl, rfl, rfl, rfl,
    s.config.trapEntry, rfl⟩

end Sys2Proof.Machine

namespace Sys2Proof.Claims

open Sys2Proof.Machine

/-- Settles O14: a fault is a raise's, and a run under a supplied entry is in tandem with the run under TRAP_ENTRY =
fault. -/
theorem onlyUdAndAcRaised : Obligations.OnlyUdAndAcRaised := by
  intro i s
  constructor
  · intro f hf
    obtain ⟨t, v, ht, -⟩ | ⟨r, hr, -⟩ | ⟨c, hc, ho, -⟩ := (Agree.refl _ _ s).exec_of_all i
    · rw [ht] at hf
      cases hf
    · rw [hr] at hf
      cases hf
    · obtain rfl := eq_faultOf_of_takeException (ho ▸ hf)
      obtain ⟨rfl, hrn⟩ | ⟨a, n, rfl, ha⟩ := hc
      · exact .inl ⟨rfl, hrn⟩
      · exact .inr ⟨a, n, rfl, ha⟩
  · intro k t hk ht
    obtain ⟨t', v, ht', hv, htv⟩ | ⟨r, hr, -⟩ | ⟨c, hc, ho, -⟩ := (agree_withTrapEntry s .fault).exec_of_all i
    · rw [ht] at ht'
      cases ht'
      refine .inl ⟨v, hv, ?_⟩
      rw [← exec_config ht]
      exact htv.eq_withTrapEntry
    · rw [ht] at hr
      cases hr
    · rw [ho, takeException_supplied hk] at ht
      cases ht
      obtain ⟨rfl, hrn⟩ | ⟨a, n, rfl, ha⟩ := hc
      · exact .inr (.inl ⟨hrn, rfl⟩)
      · exact .inr (.inr ⟨a, n, ha, rfl⟩)

/-- Settles O58: two states with different flags run in tandem where no flag is read. -/
theorem flagsSelectNothing : Obligations.FlagsSelectNothing := by
  intro i s f hs hi
  obtain ⟨t, v, ht, hv, htv⟩ | ⟨f, hf, hf'⟩ | ⟨r, hr, hr'⟩ :=
    (agree_setFlags s f).exec_of_fault (fun _ => trivial) hs hs (.inr fun _ => trivial) (.inr hi)
  · rw [ht, hv]
    have hconfig : t.config = v.config := (exec_config ht).trans (exec_config hv).symm
    exact ⟨fun g => (htv.get g trivial).symm, htv.mcr.symm, htv.mem.symm, htv.stored.symm, hconfig, htv.draws.symm⟩
  · rw [hf, hf']
    rfl
  · rw [hr, hr']
    rfl

/-- Settles O54: only the banked destination MOV reaches a register that the mode does not name, and states that
differ in the other bank alone run in tandem. -/
theorem otherBankUntouched : Obligations.OtherBankUntouched := by
  intro i s hs
  refine ⟨fun t hi ht => ⟨fun hmode k => ?_, fun hmode k => ?_⟩, fun hi hmode bank => ?_, fun hi hmode bank => ?_⟩
  · exact exec_get_of_unnamed hs hi ht fun n => hmode ▸ (regOf_supervisor_ne_irq n k).symm
  · exact exec_get_of_unnamed hs hi ht fun n => hmode ▸ (regOf_irq_ne_sup n k).symm
  · obtain ⟨t, v, ht, hv, htv⟩ | ⟨f, hf, hf'⟩ | ⟨r, hr, hr'⟩ :=
      (agree_setBankI s bank).exec_of_fault (fun n => hmode ▸ regOf_supervisor_ne_irq n) hs hs (.inl hi) (.inl trivial)
    · rw [ht, hv]
      exact htv.symm_fields
    · rw [hf, hf']
    · rw [hr, hr']
  · obtain ⟨t, v, ht, hv, htv⟩ | ⟨f, hf, hf'⟩ | ⟨r, hr, hr'⟩ :=
      (agree_withBankS s bank).exec_of_fault (fun n => hmode ▸ regOf_irq_ne_sup n) hs hs (.inl hi) (.inl trivial)
    · rw [ht, hv]
      exact htv.symm_fields
    · rw [hf, hf']
    · rw [hr, hr']

end Sys2Proof.Claims

/-! The results of the moves (R140 to R144): the end of an instruction that writes one register, FLAGS and MCR. -/

namespace Sys2Proof.Machine

/-- The mode's numbers name distinct registers (R22). -/
theorem regOf_injective (m : Mode) : Function.Injective (regOf m) := by
  intro n k
  cases m <;> revert n k <;> decide

/-- MCR.S is the mode (R24). -/
theorem State.mode_eq_supervisor_iff (s : State) : s.mode = .supervisor ↔ s.mcr.s = true := by
  rw [State.mode]
  cases s.mcr.s <;> simp

/-- A write of FLAGS sets N, Z, C, V from bits 11, 10, 9, 8 (R34). -/
theorem flagsOfWord_eq (v : Word) :
    flagsOfWord v = ⟨v.getLsbD 11, v.getLsbD 10, v.getLsbD 9, v.getLsbD 8⟩ := by
  simp [flagsOfWord, flagsOfBits]

/-- A read of FLAGS has N, Z, C, V in bits 11, 10, 9, 8, whatever is drawn (R34). -/
theorem flagsOfWord_flagsWord (f : Flags) (hi : BitVec 20) (lo : BitVec 8) : flagsOfWord (flagsWord f hi lo) = f := by
  rw [flagsOfWord, flagsWord_bits, flagsOfBits_bits]

/-- A read of MCR has every field at its place, whatever is drawn (R43). -/
theorem mcrOfWord_mcrWord (m : Mcr) (d2 : BitVec 2) (d1 : BitVec 1) : mcrOfWord (mcrWord m d2 d1) = m := by
  rw [mcrOfWord]
  congr 1
  case e_i | e_s =>
    simp only [mcrWord, BitVec.getLsbD_append, BitVec.getLsbD_ofBool]
    simp
  all_goals
    ext k hk
    simp only [mcrWord, BitVec.getElem_extractLsb', BitVec.getLsbD_append]
    grind

/-- The bits of MCR that a write stores (R43). -/
theorem getLsbD_mcrWord_mcrOfWord (v : Word) (d2 : BitVec 2) (d1 : BitVec 1) {k : Nat} (hk : k < 32) (h2 : k ≠ 2)
    (h12 : k ≠ 12) (h13 : k ≠ 13) : (mcrWord (mcrOfWord v) d2 d1).getLsbD k = v.getLsbD k := by
  simp only [mcrWord, mcrOfWord, BitVec.getLsbD_append, BitVec.getLsbD_extractLsb', BitVec.getLsbD_ofBool]
  grind

/-- Bank 3's number 0 is FLAGS (R26). -/
theorem exec_movFromBank_flags (s : State) (rd : RegNum) :
    exec (.movFromBank rd 0#4 .bank3) s = .next ((s.skipDraws 2).writeBack rd
      (flagsWord s.flags ((s.drawn 0).extractLsb' 0 20) ((s.drawn 1).extractLsb' 0 8))) := rfl

/-- Bank 3's number 1 is MCR (R26). -/
theorem exec_movFromBank_mcr (s : State) (rd : RegNum) :
    exec (.movFromBank rd 1#4 .bank3) s = .next ((s.skipDraws 2).writeBack rd
      (mcrWord s.mcr ((s.drawn 0).extractLsb' 0 2) ((s.drawn 1).extractLsb' 0 1))) := rfl

/-- A write of MCR with bit 14 clear (R43, R210). -/
theorem exec_movToBank_mcr {s : State} {rm : RegNum} (h : (s.x rm).getLsbD 14 = false) :
    exec (.movToBank 1#4 rm .bank3) s = .next (s.advance.setMcr (mcrOfWord (s.x rm))) := by
  change writeBanked .mcr (s.x rm) s = _
  simp only [writeBanked, h, Bool.false_eq_true, if_false]

/-- A write of MCR with bit 14 set (R210). -/
theorem exec_movToBank_mcr_dbg {s : State} {rm : RegNum} (h : (s.x rm).getLsbD 14 = true) :
    exec (.movToBank 1#4 rm .bank3) s = .refused .debugMode := by
  change writeBanked .mcr (s.x rm) s = _
  simp only [writeBanked, h, if_true]

end Sys2Proof.Machine

namespace Sys2Proof.Claims

open Sys2Proof.Machine

/-! The registers after an instruction. -/

section Regs
variable {s t : State} (hget : ∀ g, t.get g = s.get g)
include hget

/-- The registers after the pc goes on and one register is written (R29, R30). -/
theorem regsAre_put (g : Reg) (v : Word) : RegsAre s (t.advance.put g v) (some g) v := by
  intro k
  rw [State.get_put, State.get_advance, hget, show t.pc = s.pc from hget .pc]
  simp only [Option.some.injEq, eq_comm (a := k) (b := g)]

/-- The registers at the end of an instruction that writes Rd (R29, R30). -/
theorem regsAre_writeBack (hmode : t.mode = s.mode) (rd : RegNum) (v : Word) :
    RegsAre s (t.writeBack rd v) (some (regOf s.mode rd)) v := by
  rw [State.writeBack, hmode]
  exact regsAre_put hget _ v

/-- The registers at the end of an instruction that writes none (R30). -/
theorem regsAre_advance (v : Word) : RegsAre s t.advance none v := by
  intro k
  rw [State.get_advance, hget, show t.pc = s.pc from hget .pc]
  rfl

end Regs

/-- Nothing but registers and flags is touched by an end that writes Rd. -/
theorem kept_writeBack {s t : State} (hmcr : t.mcr = s.mcr) (hmem : t.mem = s.mem) (hstored : t.stored = s.stored)
    (hconfig : t.config = s.config) (rd : RegNum) (v : Word) : Kept s (t.writeBack rd v) := by
  simp [Kept, hmcr, hmem, hstored, hconfig]

/-- An instruction that writes one register of either bank completes so. -/
theorem runsTo_put {i : Instr} {s : State} {g : Reg} {v : Word} (h : exec i s = .next (s.advance.put g v)) :
    RunsTo i s (some g) v s.flags :=
  ⟨_, h, regsAre_put (fun _ => rfl) g v, by simp, by simp [Kept], by simp⟩

/-- An instruction that writes Rd alone completes so. -/
theorem runsTo_writeBack {i : Instr} {s : State} {rd : RegNum} {v : Word} (h : exec i s = .next (s.writeBack rd v)) :
    RunsTo i s (some (regOf s.mode rd)) v s.flags :=
  runsTo_put h

/-- The 16-bit immediate's sign extension, bit by bit (R99). -/
theorem getLsbD_imm32 (imm : BitVec 16) {k : Nat} (hk : k < 32) :
    (imm32 imm).getLsbD k = if k < 16 then imm.getLsbD k else imm.getLsbD 15 := by
  rw [imm32, BitVec.getLsbD_signExtend, BitVec.msb_eq_getLsbD_last]
  simp [hk]

/-- A half put above the lower half of a word (R101). -/
theorem toNat_append_low (imm : BitVec 16) (v : Word) :
    (imm ++ v.extractLsb' 0 16 : Word).toNat = imm.toNat * 2 ^ 16 + v.toNat % 2 ^ 16 := by
  rw [BitVec.toNat_append, ← Nat.shiftLeft_add_eq_or_of_lt (BitVec.isLt _), Nat.shiftLeft_eq, toNat_field, Nat.pow_zero,
    Nat.div_one]

/-- Settles O22: both end by writing Rd, the sign extension or the immediate above the lower half. -/
theorem movImmediateResult : Obligations.MovImmediateResult := by
  intro s rd imm
  exact ⟨⟨imm32 imm, BitVec.toInt_signExtend_of_le (by decide), fun k hk => getLsbD_imm32 imm hk, runsTo_writeBack rfl⟩,
    _, toNat_append_low imm (s.x rd), runsTo_writeBack (exec_movt rd imm s)⟩

/-- Settles O23: past `sh(Rn)` it ends by writing Rd. -/
theorem movRegisterResult : Obligations.MovRegisterResult := by
  intro s rd op hrn
  exact runsTo_writeBack (withShifted_ne (k := fun v => .next (s.writeBack rd v)) hrn)

/-- Settles O24: it ends by writing Rd with the register named in the bank. -/
theorem movFromBankRegisterResult : Obligations.MovFromBankRegisterResult := by
  intro s rd rm
  exact ⟨runsTo_writeBack rfl, runsTo_writeBack rfl⟩

/-- Settles O26: it ends by writing the register named in the bank. -/
theorem movToBankRegisterResult : Obligations.MovToBankRegisterResult := by
  intro s rd rm
  exact ⟨runsTo_put rfl, runsTo_put rfl⟩

/-- Settles O25: the reads of FLAGS and MCR have the fields at their places, whatever is drawn between them. -/
theorem movFromSystemRegisterResult : Obligations.MovFromSystemRegisterResult := by
  intro s rd
  refine ⟨⟨_, _, exec_movFromBank_flags s rd, regsAre_writeBack (s.get_skipDraws 2) rfl rd _, ?_⟩,
    ⟨_, _, exec_movFromBank_mcr s rd, regsAre_writeBack (s.get_skipDraws 2) rfl rd _, ?_⟩⟩
  · have hf := flagsOfWord_flagsWord s.flags ((s.drawn 0).extractLsb' 0 20) ((s.drawn 1).extractLsb' 0 8)
    rw [flagsOfWord_eq] at hf
    exact ⟨congrArg Flags.n hf, congrArg Flags.z hf, congrArg Flags.c hf, congrArg Flags.v hf, by simp,
      kept_writeBack rfl rfl rfl rfl rd _⟩
  · have hm := mcrOfWord_mcrWord s.mcr ((s.drawn 0).extractLsb' 0 2) ((s.drawn 1).extractLsb' 0 1)
    exact ⟨congrArg Mcr.i hm, congrArg Mcr.s hm, congrArg Mcr.v hm, congrArg Mcr.f hm, congrArg Mcr.debug hm,
      congrArg Mcr.dsn hm, by simp, kept_writeBack rfl rfl rfl rfl rd _⟩

/-- Settles O27: it ends by writing FLAGS from bits 11:8. -/
theorem movToFlagsResult : Obligations.MovToFlagsResult := by
  intro s rm
  exact ⟨s.advance.setFlags (flagsOfWord (s.x rm)), rfl,
    regsAre_advance (s := s) (t := s.setFlags (flagsOfWord (s.x rm))) (s.get_setFlags _) _,
    flagsOfWord_eq (s.x rm), ⟨rfl, fun _ => rfl, rfl, rfl⟩, rfl⟩

/-- Settles O28: bit 14 decides between the refusal and the write of every field. -/
theorem movToMcrResult : Obligations.MovToMcrResult := by
  intro s rm
  exact ⟨exec_movToBank_mcr_dbg, fun h => ⟨_, exec_movToBank_mcr h, rfl, rfl, rfl, rfl, rfl, rfl,
    State.mode_eq_supervisor_iff _,
    regsAre_advance (s := s) (t := s.setMcr (mcrOfWord (s.x rm))) (s.get_setMcr _) _, rfl, fun _ => rfl, rfl, rfl, rfl⟩⟩

/-- Settles O29: the bank and the index alone decide the refusal. -/
theorem reservedBanksRefused : Obligations.ReservedBanksRefused := by
  intro s rd rm
  have index {n : RegNum} (hn : 2 ≤ n.toNat) : bankedReg .bank3 n = .error .reservedBank3 := by
    have h0 : n ≠ 0#4 := by rintro rfl; simp at hn
    have h1 : n ≠ 1#4 := by rintro rfl; simp at hn
    rw [bankedReg, if_neg h0, if_neg h1]
  refine ⟨rfl, rfl, fun hn => ?_, fun hn => ?_⟩
  · rw [exec, execMovFromBank, index hn]
  · rw [exec, execMovToBank, index hn]

/-- Settles O30: the read's reserved bits apart, MCR holds the bits that were written. -/
theorem mcrReadsBackAsWritten : Obligations.McrReadsBackAsWritten := by
  intro s rd rm h
  refine ⟨_, _, exec_movToBank_mcr h, exec_movFromBank_mcr _ rd, fun k hk h2 h12 h13 => ?_⟩
  rw [← State.mode_skipDraws (n := 2), State.get_writeBack_self]
  exact getLsbD_mcrWord_mcrOfWord (s.x rm) _ _ hk h2 h12 h13

/-- Settles O46: the shared numbers are 0 to 7 and 15, and MCR decides only which bank the others name. -/
theorem sharedAndBankedRegisters : Obligations.SharedAndBankedRegisters := by
  refine ⟨by decide, fun s m => ⟨rfl, fun n hn => ?_⟩⟩
  have hreg (p q : Mode) : regOf p n = regOf q n := by
    obtain hn | rfl := hn
    · rw [regOf_shared p n hn, regOf_shared q n hn]
    · rw [regOf_fifteen, regOf_fifteen]
  rw [State.x, State.x, State.get_setMcr, hreg _ s.mode]

/-- Settles O47: the fields that `State.resetWith` gives. -/
theorem resetState : Obligations.ResetState :=
  fun _ => ⟨rfl, rfl, by simp [Mcr.dbg, State.resetWith], rfl, rfl⟩

/-- Settles O48: both lists are empty. -/
theorem resetMeetsInvariant : Obligations.ResetMeetsInvariant := fun _ => ⟨rfl, rfl⟩

end Sys2Proof.Claims

/-! The results of the ALU class (R150 to R174): the flag laws once, then each instruction by its end. -/

namespace Sys2Proof.Claims

open Sys2Proof.Machine

/-! The flag laws. -/

/-- N and Z computed from a result are its sign and its zero test (R150). -/
theorem nzOf_result (res : Word) (c v : Bool) : NzOf res ⟨res.msb, decide (res = 0#32), c, v⟩ := by
  refine ⟨?_, ?_⟩
  · rw [BitVec.msb_eq_decide, decide_eq_true_iff]
  · rw [decide_eq_true_iff, ← BitVec.toNat_inj]
    rfl

/-- The model's addition obeys the law of exact arithmetic (R151). -/
theorem addLaw_add (a b : Word) (cin : Bool) : AddLaw a b cin (addResult a b cin) (addFlags a b cin) :=
  ⟨BitVec.toNat_ofNat .., nzOf_result _ _ _, decide_eq_true_iff, decide_eq_true_iff⟩

/-- The model's subtraction obeys the law of exact arithmetic (R152). -/
theorem subLaw_sub (a b : Word) (bin : Bool) : SubLaw a b bin (subResult a b bin) (subFlags a b bin) := by
  refine ⟨?_, nzOf_result _ _ _, decide_eq_true_iff, decide_eq_true_iff⟩
  rw [subResult, BitVec.toNat_ofInt, Int.toNat_of_nonneg (Int.emod_nonneg _ (by decide))]
  rfl

/-- N and Z after a logical result (R150). -/
theorem nzOf_logicFlags (s : State) (res : Word) : NzOf res (s.logicFlags res).flags := by
  obtain ⟨hn, hz⟩ := s.logicFlags_nz res
  have h := nzOf_result res false false
  rwa [NzOf, ← hn, ← hz] at h

/-- C and V after a logical result under LOGIC_CV = unchanged (R153). -/
theorem logicFlags_unchanged {s : State} (h : s.config.logicCV = .unchanged) (res : Word) :
    (s.logicFlags res).flags.c = s.flags.c ∧ (s.logicFlags res).flags.v = s.flags.v := by
  rw [State.logicFlags, h]
  exact ⟨rfl, rfl⟩

/-- C and V after a logical result under LOGIC_CV = cleared (R153). -/
theorem logicFlags_cleared {s : State} (h : s.config.logicCV = .cleared) (res : Word) :
    (s.logicFlags res).flags.c = false ∧ (s.logicFlags res).flags.v = false := by
  rw [State.logicFlags, h]
  exact ⟨rfl, rfl⟩

/-! How an ALU instruction ends. -/

section Ends
variable {i : Instr} {s : State}

/-- An arithmetic instruction ends by writing the flags and Rd. -/
theorem arithRuns_writeBack {rd : RegNum} {res : Word} {f : Flags} {law : Word → Flags → Prop}
    (h : exec i s = .next ((s.setFlags f).writeBack rd res)) (hlaw : law res f) :
    ArithRuns i s (some (regOf s.mode rd)) law :=
  ⟨_, res, h, by simpa using hlaw, regsAre_writeBack (s.get_setFlags f) rfl rd res,
    kept_writeBack rfl rfl rfl rfl rd res, by simp⟩

/-- An addition into Rd. -/
theorem arithRuns_addTo {rd : RegNum} {a b : Word} {cin : Bool} (h : exec i s = .next (addTo rd a b cin s)) :
    ArithRuns i s (some (regOf s.mode rd)) (AddLaw a b cin) :=
  arithRuns_writeBack h (addLaw_add a b cin)

/-- A subtraction into Rd. -/
theorem arithRuns_subTo {rd : RegNum} {a b : Word} {bin : Bool} (h : exec i s = .next (subTo rd a b bin s)) :
    ArithRuns i s (some (regOf s.mode rd)) (SubLaw a b bin) :=
  arithRuns_writeBack h (subLaw_sub a b bin)

/-- CMP ends by writing the flags. -/
theorem arithRuns_compare {a b : Word} (h : exec i s = .next (s.setFlags (subFlags a b false)).advance) :
    ArithRuns i s none (SubLaw a b false) :=
  ⟨_, _, h, subLaw_sub a b false, regsAre_advance (s.get_setFlags _) _, ⟨rfl, fun _ => rfl, rfl, rfl⟩, rfl⟩

/-- A logical instruction ends by writing the flags and Rd. -/
theorem logicRuns_logicTo {rd : RegNum} {res : Word} (h : exec i s = .next (logicTo rd res s)) :
    LogicRuns i s (some (regOf s.mode rd)) res := by
  have hkept := kept_writeBack (s.logicFlags_mcr res) (s.logicFlags_mem res) (s.logicFlags_stored res)
    (s.logicFlags_config res) rd res
  have hregs := regsAre_writeBack (s.get_logicFlags res) (s.mode_logicFlags res) rd res
  refine ⟨_, h, hregs, ?_, fun hcv => ?_, fun hcv => ?_, hkept⟩
  all_goals rw [logicTo, State.writeBack_flags]
  · exact nzOf_logicFlags s res
  · exact logicFlags_unchanged hcv res
  · exact logicFlags_cleared hcv res

/-- TST ends by writing the flags. -/
theorem logicRuns_test {res : Word} (h : exec i s = .next (s.logicFlags res).advance) : LogicRuns i s none res :=
  ⟨_, h, regsAre_advance (s.get_logicFlags res) res, nzOf_logicFlags s res, fun hcv => logicFlags_unchanged hcv res,
    fun hcv => logicFlags_cleared hcv res, by simp [Kept]⟩

end Ends

/-- Settles O31: both forms end as an addition without carry. -/
theorem addResult : Obligations.AddResult := by
  intro s rd rm
  exact ⟨fun imm => arithRuns_addTo rfl,
    fun op hrn => arithRuns_addTo (withShifted_ne (k := fun b => .next (addTo rd (s.x rm) b false s)) hrn)⟩

/-- Settles O32: both forms end as an addition with the old C. -/
theorem addcResult : Obligations.AddcResult := by
  intro s rd rm
  exact ⟨fun imm => arithRuns_addTo rfl,
    fun op hrn => arithRuns_addTo (withShifted_ne (k := fun b => .next (addTo rd (s.x rm) b s.flags.c s)) hrn)⟩

/-- Settles O33: both forms end as a subtraction without borrow. -/
theorem subResult : Obligations.SubResult := by
  intro s rd rm
  exact ⟨fun imm => arithRuns_subTo rfl,
    fun op hrn => arithRuns_subTo (withShifted_ne (k := fun b => .next (subTo rd (s.x rm) b false s)) hrn)⟩

/-- Settles O34: both forms end as a subtraction with the old C. -/
theorem subcResult : Obligations.SubcResult := by
  intro s rd rm
  exact ⟨fun imm => arithRuns_subTo rfl,
    fun op hrn => arithRuns_subTo (withShifted_ne (k := fun b => .next (subTo rd (s.x rm) b s.flags.c s)) hrn)⟩

/-- Settles O35: both forms end with the conjunction. -/
theorem andResult : Obligations.AndResult := by
  intro s rd rm
  exact ⟨fun imm => logicRuns_logicTo rfl,
    fun op hrn => logicRuns_logicTo (withShifted_ne (k := fun b => .next (logicTo rd (s.x rm &&& b) s)) hrn)⟩

/-- Settles O36: both forms end with the conjunction with the complement. -/
theorem bicResult : Obligations.BicResult := by
  intro s rd rm
  exact ⟨fun imm => logicRuns_logicTo rfl,
    fun op hrn => logicRuns_logicTo (withShifted_ne (k := fun b => .next (logicTo rd (s.x rm &&& ~~~b) s)) hrn)⟩

/-- Settles O37: both forms end with the disjunction. -/
theorem orResult : Obligations.OrResult := by
  intro s rd rm
  exact ⟨fun imm => logicRuns_logicTo rfl,
    fun op hrn => logicRuns_logicTo (withShifted_ne (k := fun b => .next (logicTo rd (s.x rm ||| b) s)) hrn)⟩

/-- Settles O38: both forms end with the exclusive disjunction. -/
theorem xorResult : Obligations.XorResult := by
  intro s rd rm
  exact ⟨fun imm => logicRuns_logicTo rfl,
    fun op hrn => logicRuns_logicTo (withShifted_ne (k := fun b => .next (logicTo rd (s.x rm ^^^ b) s)) hrn)⟩

/-- Settles O39: both forms end with the flags of the difference. -/
theorem cmpResult : Obligations.CmpResult := by
  intro s rm
  exact ⟨fun imm => arithRuns_compare rfl,
    fun op hrn => arithRuns_compare
      (withShifted_ne (k := fun b => .next (s.setFlags (subFlags (s.x rm) b false)).advance) hrn)⟩

/-- Settles O40: both forms end with the flags of the conjunction. -/
theorem tstResult : Obligations.TstResult := by
  intro s rm
  exact ⟨fun imm => logicRuns_test rfl,
    fun op hrn => logicRuns_test (withShifted_ne (k := fun b => .next (s.logicFlags (s.x rm &&& b)).advance) hrn)⟩

/-- The flags of a difference tell equality, unsigned and signed order (R152, D9). -/
theorem SubLaw.outcome {a b res : Word} {f : Flags} (h : SubLaw a b false res f) :
    (f.z = true ↔ a = b) ∧ (f.c = true ↔ a.toNat < b.toNat) ∧ (f.n ≠ f.v ↔ a.toInt < b.toInt) := by
  obtain ⟨hres, ⟨hn, hz⟩, hc, hv⟩ := h
  have ha := a.isLt
  have hb := b.isLt
  simp only [Bool.toNat_false, Nat.cast_zero, Int.sub_zero] at hres hc hv
  refine ⟨?_, ?_, ?_⟩
  · rw [hz, ← BitVec.toNat_inj]
    omega
  · rw [hc]
    omega
  · rw [ne_eq, Bool.eq_iff_iff, hn, hv]
    rw [BitVec.toInt_eq_toNat_cond, BitVec.toInt_eq_toNat_cond]
    omega

/-- Settles O41: the flags of CMP are those of the difference, which tell the three outcomes. -/
theorem compareReadsOutcome : Obligations.CompareReadsOutcome := by
  intro s rm
  have outcome {i : Instr} {b : Word} (h : ArithRuns i s none (SubLaw (s.x rm) b false)) :
      ∃ t, exec i s = .next t ∧ (t.flags.z = true ↔ s.x rm = b) ∧ (t.flags.c = true ↔ (s.x rm).toNat < b.toNat) ∧
        (t.flags.n ≠ t.flags.v ↔ (s.x rm).toInt < b.toInt) := by
    obtain ⟨t, res, ht, hlaw, -⟩ := h
    exact ⟨t, ht, hlaw.outcome⟩
  obtain ⟨himm, hreg⟩ := cmpResult s rm
  exact ⟨fun imm => outcome (himm imm), fun op hrn => outcome (hreg op hrn)⟩

/-- What a number but 15 reads after an instruction that writes Rd and keeps the mode. -/
theorem RegsAre.x {s t : State} {rd : RegNum} {v : Word} (h : RegsAre s t (some (regOf s.mode rd)) v)
    (hmcr : t.mcr = s.mcr) {n : RegNum} (hn : n ≠ 15#4) : t.x n = if n = rd then v else s.x n := by
  rw [State.x, State.mode_congr hmcr, h, if_neg (mt (regOf_eq_pc s.mode n).1 hn)]
  simp only [Option.some.injEq, (regOf_injective s.mode).eq_iff, eq_comm (a := rd), State.x]

/-- A chain of two such instructions: what the second reads, and what stands in the two destinations after it. -/
theorem ArithRuns.chain {i j : Instr} {s : State} {lo hi : RegNum} {law : Word → Flags → Prop}
    {law' : State → Word → Flags → Prop} (hi_run : ArithRuns i s (some (regOf s.mode lo)) law)
    (hj_run : ∀ t, ArithRuns j t (some (regOf t.mode hi)) (law' t)) (hlo : lo ≠ 15#4) (hhi : hi ≠ 15#4)
    (hne : lo ≠ hi) :
    ∃ t u, exec i s = .next t ∧ exec j t = .next u ∧ law (u.x lo) t.flags ∧ law' t (u.x hi) u.flags ∧
      ∀ n, n ≠ 15#4 → lo ≠ n → t.x n = s.x n := by
  obtain ⟨t, res, ht, hlaw, hregs, ⟨hmcr, -⟩, -⟩ := hi_run
  obtain ⟨u, res', hu, hlaw', hregs', ⟨hmcr', -⟩, -⟩ := hj_run t
  have hulo : u.x lo = res := by rw [hregs'.x hmcr' hlo, if_neg hne, hregs.x hmcr hlo, if_pos rfl]
  have huhi : u.x hi = res' := by rw [hregs'.x hmcr' hhi, if_pos rfl]
  refine ⟨t, u, ht, hu, hulo ▸ hlaw, huhi ▸ hlaw', fun n hn hlon => ?_⟩
  rw [hregs.x hmcr hn, if_neg hlon.symm]

/-- Shifting left by 0 changes nothing (R104). -/
theorem shiftWord_left_zero (v : Word) : shiftWord v .left 0#4 = v := by
  simp [shiftWord]

/-- The carry that one addition hands to the next makes the two-word sum (R151, D9). -/
theorem AddLaw.chain {a b c d lo hi : Word} {f g : Flags} (hlo : AddLaw a b false lo f) (hhi : AddLaw c d f.c hi g) :
    hi.toNat * 2 ^ 32 + lo.toNat = (c.toNat * 2 ^ 32 + a.toNat + (d.toNat * 2 ^ 32 + b.toNat)) % 2 ^ 64 := by
  obtain ⟨hlo, -, hc, -⟩ := hlo
  obtain ⟨hhi, -⟩ := hhi
  have ha := a.isLt
  have hb := b.isLt
  have hcarry : f.c.toNat = (a.toNat + b.toNat) / 2 ^ 32 := by
    cases hf : f.c <;> simp [hf] at hc ⊢ <;> omega
  simp only [hcarry, Bool.toNat_false, Nat.add_zero] at hlo hhi
  rw [hlo, hhi]
  omega

/-- The borrow that one subtraction hands to the next makes the two-word difference (R152, D9). -/
theorem SubLaw.chain {a b c d lo hi : Word} {f g : Flags} (hlo : SubLaw a b false lo f) (hhi : SubLaw c d f.c hi g) :
    ((hi.toNat * 2 ^ 32 + lo.toNat : Nat) : Int) =
      (((c.toNat * 2 ^ 32 + a.toNat : Nat) : Int) - ((d.toNat * 2 ^ 32 + b.toNat : Nat) : Int)) % 2 ^ 64 := by
  obtain ⟨hlo, -, hc, -⟩ := hlo
  obtain ⟨hhi, -⟩ := hhi
  have ha := a.isLt
  have hb := b.isLt
  have hborrow : (f.c.toNat : Int) = -((a.toNat - b.toNat : Int) / 2 ^ 32) := by
    cases hf : f.c <;> simp [hf] at hc ⊢ <;> omega
  simp only [hborrow, Bool.toNat_false, Nat.cast_zero, Int.sub_zero] at hlo hhi
  push_cast
  rw [hlo, hhi]
  omega

/-- Settles O42: the second instruction takes the carry or borrow of the first and the old high words. -/
theorem carryChainsTwoWords : Obligations.CarryChainsTwoWords := by
  intro s lo hi al ah bl bh hlo hhi hbl hbh hah hne hloah hlobh
  constructor
  · obtain ⟨t, u, ht, hu, hsum, hsum', hx⟩ :=
      ((addResult s lo al).2 ⟨bl, .left, 0#4⟩ hbl).chain
        (fun t => (addcResult t hi ah).2 ⟨bh, .left, 0#4⟩ hbh) hlo hhi hne
    simp only [shiftWord_left_zero, hx ah hah hloah, hx bh hbh hlobh] at hsum hsum'
    exact ⟨t, u, ht, hu, hsum.chain hsum'⟩
  · obtain ⟨t, u, ht, hu, hdiff, hdiff', hx⟩ :=
      ((subResult s lo al).2 ⟨bl, .left, 0#4⟩ hbl).chain
        (fun t => (subcResult t hi ah).2 ⟨bh, .left, 0#4⟩ hbh) hlo hhi hne
    simp only [shiftWord_left_zero, hx ah hah hloah, hx bh hbh hlobh] at hdiff hdiff'
    exact ⟨t, u, ht, hu, hdiff.chain hdiff'⟩

/-- Settles O43: each direction bit by bit. -/
theorem shifterMovesBits : Obligations.ShifterMovesBits := by
  intro v amt k hk
  have hamt := amt.isLt
  refine ⟨?_, ?_, ?_, ?_, fun d => ?_⟩
  · rw [shiftWord, BitVec.getLsbD_shiftLeft]
    grind
  · rw [shiftWord, BitVec.getLsbD_ushiftRight]
    grind
  · rw [shiftWord, BitVec.getLsbD_sshiftRight]
    grind
  · rw [shiftWord, BitVec.getLsbD_or, BitVec.getLsbD_shiftLeft, BitVec.getLsbD_ushiftRight]
    grind
  · cases d <;> simp [shiftWord]

end Sys2Proof.Claims

/-! Loads and stores (R66, R67, R130 to R133): the bytes of an access as a number, what a store leaves in memory, and
the results built from both. -/

namespace Sys2Proof.Claims

open Sys2Proof.Machine

/-! The number that the bytes of an access stand for (R66). -/

/-- The sum of a list of bytes in base 256, as the sum over their positions. -/
theorem foldr_map_range (f : Nat → Nat) (n : Nat) :
    ((List.range n).map f).foldr (fun b v => b + 256 * v) 0 = ((List.range n).map fun k => f k * 256 ^ k).sum := by
  induction n generalizing f with
  | zero => rfl
  | succ n ih =>
    have hsucc := ih (f ∘ Nat.succ)
    simp only [List.range_succ_eq_map, List.map_cons, List.map_map, List.foldr_cons, List.sum_cons, hsucc,
      ← List.sum_map_mul_left]
    simp [Function.comp_def, Nat.pow_succ, Nat.mul_left_comm, Nat.mul_comm]

/-- A list over the positions, reversed. -/
theorem reverse_map_range {α : Type} (f : Nat → α) (n : Nat) :
    ((List.range n).map f).reverse = (List.range n).map fun k => f (n - 1 - k) :=
  List.ext_getElem (by simp) fun k _ _ => by simp

/-- BYTE_ORDER permutes the positions of an access, so a sum over the ranks is a sum over the positions (R66). -/
theorem sum_map_byteRank (o : ByteOrder) (n : Nat) (f : Nat → Nat) :
    ((List.range n).map fun k => f (byteRank o n k)).sum = ((List.range n).map f).sum := by
  cases o with
  | little => rfl
  | big => rw [← List.sum_reverse ((List.range n).map f), reverse_map_range]; rfl

/-- The low bytes of a number make its remainder (R66). -/
theorem sum_digits (v n : Nat) : ((List.range n).map fun k => v / 256 ^ k % 256 * 256 ^ k).sum = v % 256 ^ n := by
  induction n with
  | zero => simp [Nat.mod_one]
  | succ n ih => rw [List.range_succ, List.map_append, List.sum_append, ih, Nat.mod_pow_succ]; simp [Nat.mul_comm]

/-- The bytes of an access, by position (R66). -/
theorem readBytes_eq_map (m : Memory) (a : Word) (n : Nat) :
    readBytes m a n = (List.range n).map fun k => Memory.read m (a + BitVec.ofNat 32 k).toNat :=
  List.ext_getElem (by simp) fun k hk _ => by rw [getElem_readBytes]; simp

/-- At most four bytes, the least significant first, as the sum over their positions, and its bound (R66). -/
theorem toNat_assembleLittle_map (f : Nat → Byte) {n : Nat} (hn : n ≤ 4) :
    (assembleLittle ((List.range n).map f)).toNat = ((List.range n).map fun k => (f k).toNat * 256 ^ k).sum ∧
      (assembleLittle ((List.range n).map f)).toNat < 256 ^ n := by
  obtain ⟨hsum, hlt⟩ := toNat_assembleLittle ((List.range n).map f) (by simpa using hn)
  rw [List.length_map, List.length_range] at hlt
  refine ⟨?_, hlt⟩
  rw [hsum, ← foldr_map_range fun k => (f k).toNat, List.foldr_map, List.foldr_map]

/-- No access moves more than four bytes (R72). -/
theorem bytesOf_le_four (z : Size) : bytesOf z ≤ 4 := by cases z <;> decide

/-- A MemRead is the number its bytes stand for in BYTE_ORDER, and that is below 256^n (R66). -/
theorem toNat_memRead_and_lt (s : State) (a : Word) {n : Nat} (hn : n ≤ 4) :
    (s.memRead a n).toNat = valueAt s a n ∧ (s.memRead a n).toNat < 256 ^ n := by
  rw [State.memRead, readBytes_eq_map, valueAt]
  cases s.config.byteOrder with
  | little => exact toNat_assembleLittle_map _ hn
  | big =>
    simp only [assemble, reverse_map_range]
    obtain ⟨hsum, hlt⟩ := toNat_assembleLittle_map
      (fun k => Memory.read s.mem (a + BitVec.ofNat 32 (n - 1 - k)).toNat) hn
    refine ⟨?_, hlt⟩
    rw [hsum, ← sum_map_byteRank .big n fun k =>
      (Memory.read s.mem (a + BitVec.ofNat 32 k).toNat).toNat * 256 ^ byteRank .big n k]
    refine congrArg List.sum (List.map_congr_left fun k hk => ?_)
    have hk := List.mem_range.1 hk
    simp only [byteRank, show n - 1 - (n - 1 - k) = k by omega]

/-- A MemRead is the number its bytes stand for in BYTE_ORDER (R66). -/
theorem toNat_memRead (s : State) (a : Word) (z : Size) :
    (s.memRead a (bytesOf z)).toNat = valueAt s a (bytesOf z) :=
  (toNat_memRead_and_lt s a (bytesOf_le_four z)).1

/-- Bytes that are those of a value stand for its low bytes (R66, R67). -/
theorem valueAt_of_bytes {t : State} {a v : Word} {n : Nat}
    (h : ∀ k, k < n → (Memory.read t.mem (a + BitVec.ofNat 32 k).toNat).toNat =
      v.toNat / 256 ^ byteRank t.config.byteOrder n k % 256) : valueAt t a n = v.toNat % 256 ^ n := by
  rw [← sum_digits, ← sum_map_byteRank t.config.byteOrder n fun k => v.toNat / 256 ^ k % 256 * 256 ^ k]
  exact congrArg List.sum (List.map_congr_left fun k hk => by rw [h k (List.mem_range.1 hk)])

/-- Two states with the same bytes and BYTE_ORDER read the same there (R66). -/
theorem memRead_congr {s t : State} {a : Word} {n : Nat} (horder : t.config.byteOrder = s.config.byteOrder)
    (h : ∀ k, k < n →
      Memory.read t.mem (a + BitVec.ofNat 32 k).toNat = Memory.read s.mem (a + BitVec.ofNat 32 k).toNat) :
    t.memRead a n = s.memRead a n := by
  have hbytes : readBytes t.mem a n = readBytes s.mem a n :=
    List.ext_getElem (by simp) fun k ht hs => by
      rw [getElem_readBytes, getElem_readBytes, h k (by simpa using ht)]
  rw [State.memRead, State.memRead, horder, hbytes]

/-! What a store leaves in memory (R67). -/

/-- Byte `k` of the bytes that a store of `n` bytes writes (R67). -/
theorem toNat_getElem_disassemble (o : ByteOrder) (n : Nat) (v : Word) {k : Nat} (hk : k < n) :
    ((disassemble o n v)[k]'(by simpa using hk)).toNat = v.toNat / 256 ^ byteRank o n k % 256 := by
  cases o <;> simp [disassemble, toNat_byteOf, byteRank]

section MemWrite
variable {s : State} (hwf : Memory.wf s.mem = true) (a v : Word) (n : Nat)
include hwf

/-- A byte stored (R67). -/
theorem read_memWrite_inside (hn : n ≤ 4) {k : Nat} (hk : k < n) :
    (Memory.read (s.memWrite a n v).mem (a + BitVec.ofNat 32 k).toNat).toNat =
      v.toNat / 256 ^ byteRank s.config.byteOrder n k % 256 := by
  rw [State.memWrite, State.setMem_mem, read_writeBytes_inside hwf _ _ (by rw [length_disassemble]; omega) k
    (by simpa using hk), toNat_getElem_disassemble _ _ _ hk]

/-- A byte outside a store (R67). -/
theorem read_memWrite_outside {x : Nat} (hx : ∀ k, k < n → x ≠ (a + BitVec.ofNat 32 k).toNat) :
    Memory.read (s.memWrite a n v).mem x = Memory.read s.mem x :=
  read_writeBytes_outside hwf _ _ _ (by simpa using hx)

end MemWrite

/-- Settles O59: a byte written is the value's, any other is left alone, and a read is the number of its bytes. -/
theorem memoryReadsLastWrite : Obligations.MemoryReadsLastWrite := by
  intro s a v z hwf
  refine ⟨fun k hk => read_memWrite_inside hwf a v _ (bytesOf_le_four z) hk,
    fun x hx => read_memWrite_outside hwf a v _ hx, toNat_memRead, ?_, rfl, fun b y hapart => ?_⟩
  · rw [toNat_memRead]
    exact valueAt_of_bytes fun k hk => read_memWrite_inside hwf a v _ (bytesOf_le_four z) hk
  · refine memRead_congr rfl fun j hj => read_memWrite_outside hwf a v _ fun k hk heq => ?_
    exact hapart j k hj hk (BitVec.eq_of_toNat_eq heq)

/-! Loads (R130, R131). -/

/-- The value a load puts in Rd: the number its bytes stand for, extended by NARROW_LOAD_EXT (D13). -/
theorem loadValue_eq_loaded (s : State) (z : Size) (a : Word) : s.loadValue z a = loaded s a (bytesOf z) := by
  obtain ⟨-, hlt⟩ := toNat_memRead_and_lt s a (bytesOf_le_four z)
  rw [State.loadValue, loaded, ← toNat_memRead]
  generalize s.memRead a (bytesOf z) = v at hlt
  have narrow (n : Nat) : v.extractLsb' 0 n = BitVec.ofNat n v.toNat :=
    BitVec.eq_of_toNat_eq (by rw [toNat_field, Nat.pow_zero, Nat.div_one, BitVec.toNat_ofNat])
  cases s.config.narrowLoadExt with
  | zero =>
    refine BitVec.eq_of_toNat_eq ?_
    cases z <;> simp [extLoad, bytesOf] at hlt ⊢ <;> omega
  | sign =>
    cases z with
    | b => rw [extLoad, narrow]; rfl
    | w => rw [extLoad, narrow]; rfl
    | d =>
      simp only [extLoad, bytesOf]
      rw [← narrow]
      simp

/-- A load whose access completes ends by writing Rd (R130). -/
theorem runsTo_load {i : Instr} {s : State} {z : Size} {rd : RegNum} {a : Word} (hok : AccessOk s a (bytesOf z))
    (h : exec i s = load z rd a s) : RunsTo i s (some (regOf s.mode rd)) (loaded s a (bytesOf z)) s.flags :=
  runsTo_writeBack (by rw [h, load, withAccess_ok hok, loadValue_eq_loaded])

/-- Settles O17: each size is a load at Rm + imm. -/
theorem loadImmediateResult : Obligations.LoadImmediateResult := by
  intro s rd rm imm
  exact ⟨fun hok => runsTo_load (z := .b) hok rfl, fun hok => runsTo_load (z := .w) hok rfl,
    fun hok => runsTo_load (z := .d) hok rfl⟩

/-- Settles O18: past `sh(Rn)` each size is a load at Rm + sh(Rn). -/
theorem loadRegisterResult : Obligations.LoadRegisterResult := by
  intro s rd rm op hrn
  have loads (z : Size) := withShifted_ne (s := s) (k := fun b => load z rd (s.x rm + b) s) hrn
  exact ⟨fun hok => runsTo_load (z := .b) hok (loads .b), fun hok => runsTo_load (z := .w) hok (loads .w),
    fun hok => runsTo_load (z := .d) hok (loads .d)⟩

/-! Stores (R132, R133). -/

/-- A store whose access completes writes its bytes and marks them (R132). -/
theorem storeRuns_store {i : Instr} {s : State} {z : Size} {rd : RegNum} {a : Word} (hwf : Memory.wf s.mem = true)
    (hok : AccessOk s a (bytesOf z)) (h : exec i s = store z rd a s) : StoreRuns i s a (bytesOf z) (s.x rd) := by
  refine ⟨(s.memWrite a (bytesOf z) (s.x rd)).advance, by rw [h, store, withAccess_ok hok], fun g => ?_, rfl, rfl, rfl,
    rfl, fun k hk => read_memWrite_inside hwf a _ _ (bytesOf_le_four z) hk,
    fun x hx => read_memWrite_outside hwf a _ _ hx, mem_markStored s.stored a _⟩
  rw [State.get_advance, State.get_memWrite]
  rfl

/-- Settles O19: each size is a store at Rm + imm. -/
theorem storeImmediateResult : Obligations.StoreImmediateResult := by
  intro s rd rm imm hwf
  exact ⟨fun hok => storeRuns_store (z := .b) hwf hok rfl, fun hok => storeRuns_store (z := .w) hwf hok rfl,
    fun hok => storeRuns_store (z := .d) hwf hok rfl⟩

/-- Settles O20: past `sh(Rn)` each size is a store at Rm + sh(Rn). -/
theorem storeRegisterResult : Obligations.StoreRegisterResult := by
  intro s rd rm op hwf hrn
  have stores (z : Size) := withShifted_ne (s := s) (k := fun b => store z rd (s.x rm + b) s) hrn
  exact ⟨fun hok => storeRuns_store (z := .b) hwf hok (stores .b),
    fun hok => storeRuns_store (z := .w) hwf hok (stores .w), fun hok => storeRuns_store (z := .d) hwf hok (stores .d)⟩

/-! Register 15 (R28). -/

/-- After a store the bytes of its access stand for the low bytes of the value. -/
theorem StoreRuns.valueAt {i : Instr} {s : State} {a v : Word} {z : Size} (h : StoreRuns i s a (bytesOf z) v) :
    ∃ t, exec i s = .next t ∧ Claims.valueAt t a (bytesOf z) = v.toNat % 256 ^ bytesOf z := by
  obtain ⟨t, ht, -, -, -, hconfig, -, hbytes, -⟩ := h
  exact ⟨t, ht, valueAt_of_bytes (by rwa [hconfig])⟩

/-- Adding the immediate 0 gives the other operand back. -/
theorem addResult_zero (a : Word) : Machine.addResult a (imm32 0#16) false = a := by
  simp [Machine.addResult, imm32]

/-- Settles O45: `x[15]` is the pc, in the banked MOV's source, in ADD and in the value stored. -/
theorem pcReadsOwnAddress : Obligations.PcReadsOwnAddress := by
  intro s rd
  have hx : s.x 15#4 = s.pc := s.x_fifteen
  have full : s.pc.toNat % 256 ^ 4 = s.pc.toNat := Nat.mod_eq_of_lt s.pc.isLt
  refine ⟨hx, ⟨_, rfl, s.get_writeBack_self rd _⟩, ⟨_, rfl, s.get_writeBack_self rd _⟩, ⟨_, rfl, ?_⟩,
    fun rm hwf => ⟨fun imm => ?_, fun op hrn => ?_⟩⟩
  · rw [addTo, hx, addResult_zero, ← State.mode_setFlags, State.get_writeBack_self]
  · obtain ⟨hb, hw, hd⟩ := storeImmediateResult s 15#4 rm imm hwf
    rw [hx] at hb hw hd
    exact ⟨fun hok => (hb hok).valueAt (z := .b), fun hok => (hw hok).valueAt (z := .w),
      fun hok => full ▸ (hd hok).valueAt (z := .d)⟩
  · obtain ⟨hb, hw, hd⟩ := storeRegisterResult s 15#4 rm op hwf hrn
    rw [hx] at hb hw hd
    exact ⟨fun hok => (hb hok).valueAt (z := .b), fun hok => (hw hok).valueAt (z := .w),
      fun hok => full ▸ (hd hok).valueAt (z := .d)⟩

end Sys2Proof.Claims
